-- ==== Sys2Proof/Word.lean ====
section
/-! DEFINITION. The widths of the block's registers and ports (00_scope.md R7, R8; log 5). -/

namespace Sys2Proof

/-- One byte lane of the accumulated word (20_memory.md R54). -/
abbrev Byte := BitVec 8

/-- `accumulated_word`: `WORD_W` = 32 bits (00_scope.md R7). -/
abbrev Word := BitVec 32

/-- The microsecond timestamp `now` and `last_edge_time`: `TS_W` = 64 bits, unsigned (R8, D6). -/
abbrev Time := BitVec 64

/-- The pin identifier: `PIN_W` = 8 bits (R8, D7). -/
abbrev Pin := BitVec 8

/-- The register `step`: `STEP_W` = 7 bits, two's complement (R8, 10_state.md R23, D8). -/
abbrev StepReg := BitVec 7

/-- The host request word `req_op`: `OP_W` = 4 bits (R8, D2). -/
abbrev Op := BitVec 4

/-- The response value `rsp`: `RSP_W` = 16 bits (R8, D4). -/
abbrev Rsp := BitVec 16

end Sys2Proof
end

