-- ==== Sys2Proof/Ports.lean ====
section
/-! DEFINITION. The input ports of the block and what the outside world can do to them
(30_encoding.md R70 to R72, R83, R84). -/

namespace Sys2Proof

/-- The two agents that issue events (30_encoding.md R70). -/
inductive Agent where
  /-- The interrupt context: issues EDGE only. -/
  | line
  /-- The task context: issues every request, never EDGE. -/
  | host
  deriving DecidableEq, Repr

/-- The values of the input ports in one clock cycle (R83): format E is `edgeStb` with `now` (R71),
format H is `reqOp` with `pinIn` (R72). -/
structure Cycle where
  edgeStb : Bool
  now : Time
  reqOp : Op
  pinIn : Pin
  deriving DecidableEq, Repr

/-- The idle cycle: no edge strobe, and the request word of NOP (R71, R72). -/
def Cycle.idle : Cycle := { edgeStb := false, now := 0, reqOp := 0, pinIn := 0 }

/-- One thing the outside world does to the block, in the order in which it happens. -/
inductive Stimulus where
  /-- A rising edge of `clk` with these values on the input ports (R83). -/
  | clk (c : Cycle)
  /-- An assertion of the asynchronous `rst_n`, between two clock cycles (R83, R190; log 18). -/
  | rst
  deriving DecidableEq, Repr

end Sys2Proof
end

