-- ==== Sys2Proof/Syntax.lean ====
section
/-! DEFINITION. The operations of the block: one constructor for every row of `spec/opcode_table.json`
(30_encoding.md R70, R71, R73). -/

namespace Sys2Proof

/-- One event the block consumes (00_scope.md R6). -/
inductive Instr where
  /-- EDGE: a falling edge of the line, stamped by the platform's clock (R90). -/
  | edge (now : Time)
  /-- NOP: no host request this cycle (R148). -/
  | nop
  /-- ENABLE: create the instance for the line `p` (R140, R141). -/
  | enable (p : Pin)
  /-- DISABLE: destroy the instance (R142 to R144). -/
  | disable
  /-- RESET: reinitialise the instance in place (R145 to R147). -/
  | reset
  /-- IS_FINISHED (R120). -/
  | isFinished
  /-- IS_ERROR (R121). -/
  | isError
  /-- GET_ADDRESS (R122, R123, R127). -/
  | getAddress
  /-- GET_COMMAND (R124 to R127). -/
  | getCommand
  /-- RESERVED: a request word `1xxx`, held whole (R77, R149). -/
  | reserved (op : Op)
  deriving DecidableEq, Repr

end Sys2Proof
end

