-- ==== Sys2Proof/WellFormed.lean ====
section
/-! DEFINITION. Which terms of `Instr` are operations of the block, and which agent issues each. -/

namespace Sys2Proof

/-- A reserved request word is one of `1000` to `1111` (30_encoding.md R73, R77); every other operation
accepts every value of its operand (R74: `now` and `pin_in` are used as they stand). -/
def Instr.wellFormed : Instr → Bool
  | .edge _ => true
  | .nop => true
  | .enable _ => true
  | .disable => true
  | .reset => true
  | .isFinished => true
  | .isError => true
  | .getAddress => true
  | .getCommand => true
  | .reserved op => op.getLsbD 3

/-- The agent that may issue the operation (30_encoding.md R70, 60_exceptions.md R171). -/
def Instr.agent : Instr → Agent
  | .edge _ => .line
  | .nop => .host
  | .enable _ => .host
  | .disable => .host
  | .reset => .host
  | .isFinished => .host
  | .isError => .host
  | .getAddress => .host
  | .getCommand => .host
  | .reserved _ => .host

end Sys2Proof
end

