-- ==== Sys2Proof/Decode.lean ====
section
/-! DEFINITION. From the values on the input ports to operations, and back (30_encoding.md R71 to R73,
R79). The decoder is total: every value of (`edge_stb`, `req_op`) selects exactly one behaviour, so there is
nothing to reject. -/

namespace Sys2Proof

/-- Format E: an EDGE event exactly when `edge_stb == 1`; otherwise `now` is ignored (R71). -/
def decodeE (c : Cycle) : Option Instr :=
  if c.edgeStb then some (.edge c.now) else none

/-- Format H: the opcode map of `req_op`; `pin_in` is read by ENABLE only (R72, R73). -/
def decodeH (c : Cycle) : Instr :=
  if c.reqOp = 0b0000#4 then .nop
  else if c.reqOp = 0b0001#4 then .enable c.pinIn
  else if c.reqOp = 0b0010#4 then .disable
  else if c.reqOp = 0b0011#4 then .reset
  else if c.reqOp = 0b0100#4 then .isFinished
  else if c.reqOp = 0b0101#4 then .isError
  else if c.reqOp = 0b0110#4 then .getAddress
  else if c.reqOp = 0b0111#4 then .getCommand
  else .reserved c.reqOp

/-- The events of one clock cycle in the order in which they are applied: the edge first, the host
request second (R79, 20_memory.md R57). NOP is "the absence of a host request in a cycle" (R148), so a cycle
with an edge and the request word `0000` is the one event EDGE (95_test_vectors.md, encoding of a script line;
log 17). -/
def decode (c : Cycle) : List Instr :=
  match decodeE c with
  | none => [decodeH c]
  | some e => if c.reqOp = 0b0000#4 then [e] else [e, decodeH c]

/-- The request word of a host operation (R73); an EDGE leaves the host port at `0000`. -/
def Instr.reqWord : Instr → Op
  | .edge _ => 0b0000#4
  | .nop => 0b0000#4
  | .enable _ => 0b0001#4
  | .disable => 0b0010#4
  | .reset => 0b0011#4
  | .isFinished => 0b0100#4
  | .isError => 0b0101#4
  | .getAddress => 0b0110#4
  | .getCommand => 0b0111#4
  | .reserved op => op

/-- The `now` operand on format E (R71); 0 where the format does not read it. -/
def Instr.nowOperand : Instr → Time
  | .edge now => now
  | .nop | .enable _ | .disable | .reset | .isFinished | .isError | .getAddress | .getCommand | .reserved _ => 0

/-- The `pin_in` operand on format H (R72); 0 where the format does not read it. -/
def Instr.pinOperand : Instr → Pin
  | .enable p => p
  | .edge _ | .nop | .disable | .reset | .isFinished | .isError | .getAddress | .getCommand | .reserved _ => 0

/-- The cycle that carries the one event `i` and nothing else; the ports it does not use are 0. -/
def encode (i : Instr) : Cycle :=
  { edgeStb := decide (i.agent = .line), now := i.nowOperand, reqOp := i.reqWord, pinIn := i.pinOperand }

/-- The cycle of two events written on one line, `EDGE @t || X` (30_encoding.md R80). -/
def encodeBoth (now : Time) (i : Instr) : Cycle :=
  { edgeStb := true, now := now, reqOp := i.reqWord, pinIn := i.pinOperand }

/-- The cycle of a word of `spec/opcode_table.json`. The table's two formats number different ports from
bit 0, so the same number can stand for a word of either: a number of fewer than four bits can only be a word of
format E (one bit, `edge_stb`), any other is read on format H (`req_op[3:0]`) (log 4). Operands are 0. -/
def Cycle.ofTableWord (nbits w : Nat) : Cycle :=
  if nbits < 4 then { edgeStb := w.testBit 0, now := 0, reqOp := 0, pinIn := 0 }
  else { edgeStb := false, now := 0, reqOp := BitVec.ofNat 4 w, pinIn := 0 }

/-- The operation that the decoder reads from a word of the opcode table. -/
def decodeTableWord (nbits w : Nat) : Option Instr :=
  let c := Cycle.ofTableWord nbits w
  if nbits < 4 then decodeE c else some (decodeH c)

end Sys2Proof
end

