-- ==== Sys2Proof/Config.lean ====
section
/-! DEFINITION. The constants the spec fixes (00_scope.md R7) and the values it leaves open
(93_implementation_defined.md U9). -/

namespace Sys2Proof.Config

/-- `NBITS`: data bits of a frame, and the value of `step` in DONE (R7). -/
abbrev nbits : Int := 32

/-- `STEP_LEADING_GAP`: the initial value of `step` (R7). -/
abbrev stepLeadingGap : Int := -2

/-- `STEP_LEADING_PULSE` (R7). -/
abbrev stepLeadingPulse : Int := -1

/-- `LEADER_MIN`: the smallest accepted leader gap in microseconds (R7, 90_conflicts.md C1). -/
abbrev leaderMin : Nat := 13000

/-- `LEADER_MAX`: the largest accepted leader gap in microseconds (R7, 90_conflicts.md C1). -/
abbrev leaderMax : Nat := 14000

/-- `BIT_THRESHOLD`: a strictly greater gap is a 1 (R7). -/
abbrev bitThreshold : Nat := 1600

/-- `EDGES_PER_FRAME`: edges from a fresh instance to DONE (R7). -/
abbrev edgesPerFrame : Nat := 34

/-- Free value: what `rsp` carries in the cycle numbered by its argument while `rsp_valid == 0`
(30_encoding.md R76 "`rsp` unspecified", U9; log 14). It has no body and no claim may rest on it. -/
opaque freeRsp : Nat → Rsp

/-- Free value: what `pin_sel` carries in the cycle numbered by its argument while `present == 0`
(30_encoding.md R75 "else unspecified", U9; log 15). It has no body and no claim may rest on it. -/
opaque freePinSel : Nat → Pin

end Sys2Proof.Config
end

