-- ==== Sys2Proof/Machine/State.lean ====
section
/-! DEFINITION. The state of one block (10_state.md R20), the reasons a step can stop, and the state at
power-on (R34). -/

namespace Sys2Proof.Machine

/-- The six fields of an instance that exists (10_state.md R20). -/
structure Decoder where
  /-- `pin`: the monitored line, written by ENABLE only (R21). -/
  pin : Pin
  /-- `accumulated_word` (R22). -/
  word : Word
  /-- `step`, a two's-complement register (R23). -/
  step : StepReg
  /-- `last_edge_time`, unsigned microseconds (R24). -/
  last : Time
  /-- `error_flag`, sticky (R25). -/
  err : Bool
  /-- `halt`: a framing error is latched (R26). -/
  halt : Bool
  deriving DecidableEq, Repr

/-- The state of the machine. The seven fields of R20 are `decoder`: `present == 1` is `some` of the other six,
`present == 0` is `none`, since the spec gives an absent instance no values (R34). The rest is the model's own:
the response port of the cycle just run, the ports' values to come, and a counter for free values. -/
structure State where
  /-- The instance, empty while `present == 0` (R27, R34; log 6). -/
  decoder : Option Decoder
  /-- The response port in the cycle just run: `none` is `rsp_valid = 0`, `some v` is `rsp_valid = 1, rsp = v`
  (30_encoding.md R76; log 14). -/
  rsp : Option Rsp
  /-- What the outside world does next, first element first: the total order of events (20_memory.md R56; log 1). -/
  inputs : List Stimulus
  /-- How many stimuli have been consumed; free values are applied to it (log 15). -/
  ticks : Nat
  deriving DecidableEq, Repr

/-- `present` (10_state.md R27). -/
def State.present (s : State) : Bool := s.decoder.isSome

/-- The phases of the machine (10_state.md R28). -/
inductive Phase where
  | absent
  | error
  | leadingGap
  | leadingPulse
  | bit (i : Nat)
  | done
  | outOfRange
  deriving DecidableEq, Repr

/-- The error classes that are recorded in the state (60_exceptions.md R161 to R163). -/
inductive ErrorClass where
  /-- The leader pulse is outside the window: raised by EDGE only (R161). -/
  | framing
  /-- The command check byte does not match: raised by GET_COMMAND only (R162). -/
  | checksum
  /-- A field is queried before completion: raised by GET_ADDRESS and GET_COMMAND (R163). -/
  | usage
  deriving DecidableEq, Repr

/-- The machine has no fault: "there is no fatal/abort path anywhere in this core" (60_exceptions.md R160), so
the type has no constructor. Raised by nobody; safe. -/
inductive Fault where
  deriving DecidableEq, Repr

/-- The events the model gives no meaning. -/
inductive Refusal where
  /-- Raised by `exec` for an instruction without a meaning; none is left. Safe. -/
  | notModelled (mnemonic : String)
  /-- Raised by ENABLE on a present instance: "the model *refuses* this event" (42_lifecycle.md R141; log 7). Safe. -/
  | enableOnPresent
  /-- Raised by EDGE on a present instance when `now < last`: the model "*refuses* it" (40_edge_acquisition.md R91;
  log 8). Safe. -/
  | clockBackwards
  deriving DecidableEq, Repr

/-- Power-on: no instance exists (10_state.md R34, 70_reset_and_hazards.md R190), no cycle has run, and no
stimulus is listed. -/
def State.reset : State := { decoder := none, rsp := none, inputs := [], ticks := 0 }

end Sys2Proof.Machine
end

