-- ==== Sys2Proof/Machine/Operands.lean ====
section
/-! DEFINITION. The values the operations compute with: the gap, the accumulator, the byte lanes, the response
widths, the sequence counter and the phase. -/

namespace Sys2Proof.Machine

/-- `gap = now - last`, an exact subtraction of naturals where `now >= last` (40_edge_acquisition.md R92, R108). -/
def gap (now last : Time) : Nat := now.toNat - last.toNat

/-- `bit_of`: 1 if the gap is strictly greater than 1600 (40_edge_acquisition.md R102). -/
def bitOf (g : Nat) : Bool := decide (Config.bitThreshold < g)

/-- `acc(w, b) = ((w << 1) | b) mod 2^32`: shift first, then insert (40_edge_acquisition.md R103,
90_conflicts.md C2; log 12). -/
def acc (w : Word) (b : Bool) : Word := (w <<< 1) ||| (BitVec.ofBool b).setWidth 32

/-- `not8(v)`: the bitwise complement of a byte (00_scope.md R10). -/
def not8 (v : Byte) : Byte := ~~~v

/-- `B3 = word[31:24]`, the first byte to arrive (20_memory.md R54). -/
def laneB3 (w : Word) : Byte := w.extractLsb' 24 8

/-- `B2 = word[23:16]` (20_memory.md R54). -/
def laneB2 (w : Word) : Byte := w.extractLsb' 16 8

/-- `B1 = word[15:8]` (20_memory.md R54). -/
def laneB1 (w : Word) : Byte := w.extractLsb' 8 8

/-- `B0 = word[7:0]`, the last byte to arrive (20_memory.md R54). -/
def laneB0 (w : Word) : Byte := w.extractLsb' 0 8

/-- A boolean response, `zext_16` of one bit (30_encoding.md R76). -/
def rspOfBool (b : Bool) : Rsp := (BitVec.ofBool b).setWidth 16

/-- An 8-bit response, zero-extended (30_encoding.md R76, 41_queries_and_framer.md R132). -/
def rspOfByte (b : Byte) : Rsp := b.setWidth 16

/-- The value of the register `step` holding `k` (10_state.md R23). -/
def stepOfInt (k : Int) : StepReg := BitVec.ofInt 7 k

/-- The completion condition `step == 32` (41_queries_and_framer.md R120). -/
def Decoder.complete (d : Decoder) : Bool := decide (d.step.toInt = Config.nbits)

/-- The phase of an instance that exists (10_state.md R28): `halt` is tested before `step`. -/
def Decoder.phase (d : Decoder) : Phase :=
  let k := d.step.toInt
  if d.halt then .error
  else if k = Config.stepLeadingGap then .leadingGap
  else if k = Config.stepLeadingPulse then .leadingPulse
  else if 0 ≤ k ∧ k < Config.nbits then .bit k.toNat
  else if k = Config.nbits then .done
  else .outOfRange

/-- The phase of a state (10_state.md R28). -/
def State.phase (s : State) : Phase :=
  match s.decoder with
  | none => .absent
  | some d => d.phase

end Sys2Proof.Machine
end

