-- ==== Sys2Proof/Machine/Flags.lean ====
section
/-! DEFINITION. The conditions that decide the two status flags `err` and `halt` (10_state.md R37; there are no
arithmetic condition codes). -/

namespace Sys2Proof.Machine

/-- `leader_ok`: the timing validator's window, both bounds accepted (40_edge_acquisition.md R101,
90_conflicts.md C1). -/
def leaderOk (g : Nat) : Bool := decide (Config.leaderMin ≤ g ∧ g ≤ Config.leaderMax)

/-- The address check byte matches, which selects the compact form and touches no flag
(41_queries_and_framer.md R122, R130). -/
def addressCheck (w : Word) : Bool := decide (laneB2 w = not8 (laneB3 w))

/-- The command check byte matches (41_queries_and_framer.md R124, R125). -/
def commandCheck (w : Word) : Bool := decide (laneB0 w = not8 (laneB1 w))

/-- The clock runs backwards on an instance whose newest edge was stamped `last`: outside the platform contract
(40_edge_acquisition.md R91). -/
def clockBackwards (now last : Time) : Bool := decide (now.toNat < last.toNat)

end Sys2Proof.Machine
end

