-- ==== Sys2Proof/Machine/Ops.lean ====
section
/-! DEFINITION. The operations on the state that the meanings share: how an operation ends, how an error is
recorded (what takes the place of trap entry, 60_exceptions.md R166) and how it is cleared (what takes the place of
trap return, R167). -/

namespace Sys2Proof.Machine

/-- The outcome of an event. -/
abbrev Result := Host.Outcome State Fault Refusal

/-- An operation ends: the instance becomes `d` and the response port carries `r`, together (20_memory.md R56). -/
def State.finish (s : State) (d : Option Decoder) (r : Option Rsp) : Result :=
  .next { s with decoder := d, rsp := r }

/-- A fresh instance for the line `p`: the values ENABLE writes (42_lifecycle.md R140, 10_state.md R34). -/
def Decoder.fresh (p : Pin) : Decoder :=
  { pin := p, word := 0, step := stepOfInt Config.stepLeadingGap, last := 0, err := false, halt := false }

/-- RESET of an instance: every field but `pin` (42_lifecycle.md R145). It is the only way to clear `err` and `halt`
on a present instance (60_exceptions.md R167). -/
def Decoder.reinit (d : Decoder) : Decoder :=
  { d with word := 0, step := stepOfInt Config.stepLeadingGap, last := 0, err := false, halt := false }

/-- Recording an error (60_exceptions.md R161 to R164, R166): every class sets `err`; a framing error also sets
`halt` and puts `step` back to -2. Nothing is saved and control goes nowhere. -/
def Decoder.record (e : ErrorClass) (d : Decoder) : Decoder :=
  match e with
  | .framing => { d with err := true, halt := true, step := stepOfInt Config.stepLeadingGap }
  | .checksum => { d with err := true }
  | .usage => { d with err := true }

/-- `last <- now`, common to every arm of EDGE on a present instance (40_edge_acquisition.md R92). -/
def Decoder.stamp (d : Decoder) (now : Time) : Decoder := { d with last := now }

/-- `step <- k` (10_state.md R36). -/
def Decoder.goto (d : Decoder) (k : Int) : Decoder := { d with step := stepOfInt k }

/-- `word <- acc(word, b)` (40_edge_acquisition.md R96). -/
def Decoder.shiftIn (d : Decoder) (b : Bool) : Decoder := { d with word := acc d.word b }

/-- Power-on, the hardware reset input `rst_n`: the block comes up absent and drives no response
(10_state.md R34, 70_reset_and_hazards.md R190). -/
def State.powerOn (s : State) : State := { s with decoder := none, rsp := none }

end Sys2Proof.Machine
end

