-- ==== Sys2Proof/Machine/Edge.lean ====
section
/-! DEFINITION. The operation of the line agent: EDGE (40_edge_acquisition.md). -/

namespace Sys2Proof.Machine

/-- One edge on a present instance under the platform contract: stamp `last`, then the arm of the phase
(40_edge_acquisition.md R90, R92 to R99). The gap and the phase are those of the state before the edge. -/
def Decoder.onEdge (d : Decoder) (now : Time) : Decoder :=
  let g := gap now d.last
  let stamped := d.stamp now
  match d.phase with
  | .leadingGap => stamped.goto Config.stepLeadingPulse
  | .leadingPulse => if leaderOk g then stamped.goto 0 else stamped.record .framing
  | .bit i => (stamped.shiftIn (bitOf g)).goto (i + 1)
  | .done => stamped
  | .error => stamped
  | .outOfRange => stamped
  | .absent => stamped

/-- EDGE(now) (40_edge_acquisition.md R90). On an absent instance nothing changes and no precondition applies
(R100); on a present one an event with `now < last` is refused (R91). EDGE has no response. -/
def execEdge (now : Time) (s : State) : Result :=
  match s.decoder with
  | none => s.finish none none
  | some d =>
    if clockBackwards now d.last then .refused .clockBackwards
    else s.finish (some (d.onEdge now)) none

end Sys2Proof.Machine
end

