-- ==== Sys2Proof/Machine/Lifecycle.lean ====
section
/-! DEFINITION. The operations that create, destroy and reinitialise the instance, and the null and reserved
requests (42_lifecycle.md). None has a response. -/

namespace Sys2Proof.Machine

/-- ENABLE(p): on an absent instance a fresh one (42_lifecycle.md R140); on a present instance refused (R141). -/
def execEnable (p : Pin) (s : State) : Result :=
  match s.decoder with
  | none => s.finish (some (Decoder.fresh p)) none
  | some _ => .refused .enableOnPresent

/-- DISABLE: the instance ceases to exist (42_lifecycle.md R142); a no-op when absent (R143). -/
def execDisable (s : State) : Result := s.finish none none

/-- RESET: reinitialises a present instance (42_lifecycle.md R145); a no-op when absent (R146). -/
def execReset (s : State) : Result := s.finish (s.decoder.map Decoder.reinit) none

/-- A request that does nothing: no state change, no response (42_lifecycle.md R148). -/
def noRequest (s : State) : Result := s.finish s.decoder none

/-- NOP (42_lifecycle.md R148). -/
def execNop (s : State) : Result := noRequest s

/-- A reserved request word behaves exactly as NOP, whichever of the eight it is (42_lifecycle.md R149,
30_encoding.md R77). -/
def execReserved (_op : Op) (s : State) : Result := noRequest s

end Sys2Proof.Machine
end

