-- ==== Sys2Proof/Machine/Queries.lean ====
section
/-! DEFINITION. The query operations and the protocol framer (41_queries_and_framer.md). -/

namespace Sys2Proof.Machine

/-- The address of a finished word: the low byte of the upper half where it is the complement of the high byte
(compact form), otherwise the whole upper half (41_queries_and_framer.md R122). -/
def addressOf (w : Word) : Rsp :=
  if addressCheck w then rspOfByte (laneB2 w) else laneB3 w ++ laneB2 w

/-- IS_FINISHED (41_queries_and_framer.md R120). -/
def execIsFinished (s : State) : Result :=
  match s.decoder with
  | none => s.finish none (some (rspOfBool false))
  | some d => s.finish (some d) (some (rspOfBool d.complete))

/-- IS_ERROR: true on an absent instance, the fail-safe default (41_queries_and_framer.md R121). -/
def execIsError (s : State) : Result :=
  match s.decoder with
  | none => s.finish none (some (rspOfBool true))
  | some d => s.finish (some d) (some (rspOfBool d.err))

/-- GET_ADDRESS: finished (41_queries_and_framer.md R122, R130), unfinished (R123), absent (R127). -/
def execGetAddress (s : State) : Result :=
  match s.decoder with
  | none => s.finish none (some 0)
  | some d =>
    if d.complete then s.finish (some d) (some (addressOf d.word))
    else s.finish (some (d.record .usage)) (some 0)

/-- GET_COMMAND: finished with a good check byte (41_queries_and_framer.md R124) or a bad one (R125, the value is
still returned), unfinished (R126), absent (R127). `step` is tested before the check byte (60_exceptions.md R165). -/
def execGetCommand (s : State) : Result :=
  match s.decoder with
  | none => s.finish none (some 0)
  | some d =>
    if d.complete then
      if commandCheck d.word then s.finish (some d) (some (rspOfByte (laneB0 d.word)))
      else s.finish (some (d.record .checksum)) (some (rspOfByte (laneB0 d.word)))
    else s.finish (some (d.record .usage)) (some 0)

end Sys2Proof.Machine
end

