-- ==== Sys2Proof/Machine/Dispatch.lean ====
section
/-! DEFINITION. One arm per operation. -/

namespace Sys2Proof.Machine

def exec (i : Instr) (s : State) : Host.Outcome State Fault Refusal :=
  match i with
  | .edge now => Sys2Proof.Machine.execEdge now s
  | .nop => Sys2Proof.Machine.execNop s
  | .enable p => Sys2Proof.Machine.execEnable p s
  | .disable => Sys2Proof.Machine.execDisable s
  | .reset => Sys2Proof.Machine.execReset s
  | .isFinished => Sys2Proof.Machine.execIsFinished s
  | .isError => Sys2Proof.Machine.execIsError s
  | .getAddress => Sys2Proof.Machine.execGetAddress s
  | .getCommand => Sys2Proof.Machine.execGetCommand s
  | .reserved op => Sys2Proof.Machine.execReserved op s

end Sys2Proof.Machine
end

