-- ==== Sys2Proof/Machine/Cycle.lean ====
section
/-! DEFINITION. Running the events of one stimulus (30_encoding.md R79, R83; 20_memory.md R56, R57). -/

namespace Sys2Proof.Machine

/-- Events applied one after the other, each to the state the one before it left; the first refusal stops: "the
state after a sequence of operations is the fold of the per-operation rules over that order" (20_memory.md R56). -/
def execAll : List Instr → State → Result
  | [], s => .next s
  | i :: rest, s =>
    match exec i s with
    | .next s' => execAll rest s'
    | .fault r => .fault r
    | .refused r => .refused r

/-- One clock cycle: the edge event if any, then the host request (30_encoding.md R79, R83). -/
def runCycle (c : Cycle) (s : State) : Result := execAll (decode c) s

/-- The stimulus that comes next; when none is listed the ports are idle (log 2). -/
def State.nextStimulus (s : State) : Stimulus := s.inputs.headD (.clk Cycle.idle)

/-- The stimulus is consumed, and the counter for free values advances. -/
def State.advance (s : State) : State := { s with inputs := s.inputs.tail, ticks := s.ticks + 1 }

/-- One stimulus: a clock cycle, or an assertion of `rst_n` (30_encoding.md R83). -/
def apply (x : Stimulus) (s : State) : Result :=
  match x with
  | .clk c => runCycle c s
  | .rst => .next s.powerOn

/-- `x` put where the next step takes its stimulus from; whatever was listed follows it. -/
def State.feed (s : State) (x : Stimulus) : State := { s with inputs := x :: s.inputs }

end Sys2Proof.Machine
end

