-- ==== Sys2Proof/Machine/Step.lean ====
section
/-! DEFINITION. One step of the machine: the next stimulus is consumed and applied. -/

namespace Sys2Proof.Machine

/-- One step: one clock cycle of the reference realisation, or one assertion of `rst_n` (30_encoding.md R83). -/
def step (s : State) : Host.Outcome State Fault Refusal := apply s.nextStimulus s.advance

/-- `s` with the word of the opcode table as its next cycle; nothing else changes (log 3, log 4). -/
def State.withFetchWord (s : State) (nbits w : Nat) : State := s.feed (.clk (Cycle.ofTableWord nbits w))

end Sys2Proof.Machine
end

