-- ==== Sys2Proof/Machine/Outputs.lean ====
section
/-! DEFINITION. The output ports as functions of the state (30_encoding.md R75, R76, R84). -/

namespace Sys2Proof.Machine

/-- `finished` (30_encoding.md R75). -/
def State.finished (s : State) : Bool :=
  match s.decoder with
  | none => false
  | some d => d.complete

/-- `error`: 1 on an absent instance (30_encoding.md R75). -/
def State.errorOut (s : State) : Bool :=
  match s.decoder with
  | none => true
  | some d => d.err

/-- `armed = present` (30_encoding.md R75). -/
def State.armed (s : State) : Bool := s.present

/-- `pin_sel`: `pin` of a present instance, unspecified otherwise (30_encoding.md R75; log 15). -/
def State.pinSel (s : State) : Pin :=
  match s.decoder with
  | none => Config.freePinSel s.ticks
  | some d => d.pin

/-- `rsp_valid` of the cycle just run (30_encoding.md R76). -/
def State.rspValid (s : State) : Bool := s.rsp.isSome

/-- `rsp` of the cycle just run; unspecified while `rsp_valid == 0` (30_encoding.md R76; log 14). -/
def State.rspPort (s : State) : Rsp :=
  match s.rsp with
  | none => Config.freeRsp s.ticks
  | some v => v

end Sys2Proof.Machine
end

