-- ==== Sys2Proof/Machine/Script.lean ====
section
/-! DEFINITION. Event scripts and their pseudo-operations (30_encoding.md R80, R81; 00_scope.md R14): one constructor
per production of the grammar and per row of the table of pseudo-operations. The times are the script's naturals; a line
becomes the clock cycles it stands for. -/

namespace Sys2Proof.Machine

/-- What a line of a script says beside its expected response (30_encoding.md R80, R81). -/
inductive ScriptEvent where
  /-- `EDGE @t`. -/
  | edge (t : Nat)
  /-- One of the host's requests, or NOP. -/
  | request (i : Instr)
  /-- `EDGE @t || X`: both in the same clock cycle. R80 and R81 do not say whether a pseudo-operation may stand in a
  `||` line (`GAP g || X`): the model has no such form, and the edge is written with its absolute time (DESIGN CHOICE,
  log 35). -/
  | both (t : Nat) (i : Instr)
  /-- `GAP g`: an edge `g` after the previous edge. -/
  | gap (g : Nat)
  /-- `AT t`: sets the previous time and emits no event. -/
  | at (t : Nat)
  /-- `FRAME t0 L w g0 g1`. -/
  | frame (t0 L : Nat) (w : Word) (g0 g1 : Nat)
  /-- `POLL`: IS_FINISHED repeated until it returns 1. Its length "depends on the interleaving" (R81), so the line
  carries the interleaving: the edges that arrive in each pause between a request and the next one, as many pauses as
  requests that return 0. How the interleaving is written is DESIGN CHOICE (log 22). -/
  | poll (pauses : List (List Time))
  deriving DecidableEq, Repr

/-- A line: an event, and the response it expects if one is written after `->` (30_encoding.md R80, 00_scope.md
R14). R80 lets the value be any natural and does not say what one of more than `RSP_W` bits means: the response port
cannot carry it, and a line with such a value cannot be written here (DESIGN CHOICE, log 34). -/
structure ScriptLine where
  event : ScriptEvent
  expect : Option Rsp
  deriving DecidableEq, Repr

/-- The requests that R80's grammar lets a line name: every host operation and NOP, and no reserved word. -/
def isScriptRequest : Instr → Bool
  | .nop | .enable _ | .disable | .reset | .isFinished | .isError | .getAddress | .getCommand => true
  | .edge _ | .reserved _ => false

/-- Clock cycles, each with the response it must drive, where one is demanded. -/
abbrev CheckedCycles := List (Cycle × Option Rsp)

/-- The cycle of `EDGE @t`; a time that `TS_W` bits do not hold is none that `now` can carry (log 5). -/
def edgeAt (t : Nat) : Option (Cycle × Option Rsp) :=
  if t < 2 ^ 64 then some (encode (.edge (BitVec.ofNat 64 t)), none) else none

/-- The cycles of some `EDGE` lines. -/
def edgesAt : List Nat → Option CheckedCycles
  | [] => some []
  | t :: rest =>
    match edgeAt t, edgesAt rest with
    | some c, some cs => some (c :: cs)
    | _, _ => none

/-- The bits of a word, the most significant first: the order in which a frame sends them (30_encoding.md R81). -/
def bitsMsbFirst (w : Word) : List Bool := (List.range 32).map fun i => w.getLsbD (31 - i)

/-- The times of the bit edges of a frame, one gap after another from the time `t` (30_encoding.md R81). -/
def bitEdgeTimes (g0 g1 : Nat) : Nat → List Bool → List Nat
  | _, [] => []
  | t, b :: rest => (t + if b then g1 else g0) :: bitEdgeTimes g0 g1 (t + if b then g1 else g0) rest

/-- The thirty-four edge times of `FRAME t0 L w g0 g1` (30_encoding.md R81). -/
def frameTimes (t0 L : Nat) (w : Word) (g0 g1 : Nat) : List Nat :=
  t0 :: (t0 + L) :: bitEdgeTimes g0 g1 (t0 + L) (bitsMsbFirst w)

/-- The cycles of `POLL`: IS_FINISHED returning 0, the edges of the pause after it, and so on, and at last IS_FINISHED
returning 1 (30_encoding.md R81). -/
def pollCycles : List (List Time) → CheckedCycles
  | [] => [(encode .isFinished, some (rspOfBool true))]
  | pause :: rest =>
    (encode .isFinished, some (rspOfBool false)) :: (pause.map fun now => (encode (.edge now), none)) ++ pollCycles rest

/-- What a line expands to: its cycles, and `t_prev` after it. -/
structure Expansion where
  cycles : CheckedCycles
  prev : Option Nat
  deriving DecidableEq, Repr

/-- The expansion of an event, given `t_prev` before it (30_encoding.md R80, R81). `t_prev` is the time of the newest
edge of the lines before, whichever line it comes from, or of an `AT` line after it. It is `none` before the first such
line, since R81 gives it no value there: a `GAP` that stands first has no expansion (DESIGN CHOICE, log 33). Nor has a
line that R80 or R81 does not admit: a request that is no host operation, a `FRAME` without `g0 <= 1600 < g1`. -/
def ScriptEvent.expand (prev : Option Nat) : ScriptEvent → Option Expansion
  | .edge t => (edgeAt t).map fun c => { cycles := [c], prev := some t }
  | .request i => if isScriptRequest i then some { cycles := [(encode i, none)], prev := prev } else none
  | .both t i =>
    if isScriptRequest i ∧ t < 2 ^ 64 then
      some { cycles := [(encodeBoth (BitVec.ofNat 64 t) i, none)], prev := some t }
    else none
  | .gap g => prev.bind fun t => (edgeAt (t + g)).map fun c => { cycles := [c], prev := some (t + g) }
  | .at t => some { cycles := [], prev := some t }
  | .frame t0 L w g0 g1 =>
    if g0 ≤ Config.bitThreshold ∧ Config.bitThreshold < g1 then
      (edgesAt (frameTimes t0 L w g0 g1)).map fun cs => { cycles := cs, prev := (frameTimes t0 L w g0 g1).getLast? }
    else none
  | .poll pauses =>
    some { cycles := pollCycles pauses, prev := (pauses.flatten.getLast?.map BitVec.toNat).or prev }

/-- The cycles of a script, top to bottom (30_encoding.md R80); none if a line has no expansion. -/
def expandScript : Option Nat → List ScriptLine → Option CheckedCycles
  | _, [] => some []
  | prev, l :: rest =>
    match l.event.expand prev with
    | none => none
    | some e => (expandScript e.prev rest).map fun cs => e.cycles ++ cs

/-- The inputs a script puts on the ports; no line stands before its first, so `t_prev` has no value yet (DESIGN
CHOICE, log 33). -/
def scriptInputs (script : List ScriptLine) : Option (List Stimulus) :=
  (expandScript none script).map fun cs => cs.map fun c => .clk c.1

/-- Cycles one after the other: the state they leave, if none is refused and every demanded response is driven. -/
def runChecked : CheckedCycles → State → Option State
  | [], s => some s
  | (c, want) :: rest, s =>
    match runCycle c s with
    | .next t => if want = none ∨ t.rsp = want then runChecked rest t else none
    | .fault _ => none
    | .refused _ => none

/-- Whether the response written on a line is the one the block drives in the line's last cycle, which left the state
`t`. The spec does not say what `-> v` means on a line whose last event has no response or which emits no event: it is
not met there, and the script does not hold (DESIGN CHOICE, log 32). A line without `->` asks for nothing. -/
def ScriptLine.met (l : ScriptLine) (cycles : CheckedCycles) (t : State) : Bool :=
  l.expect.isNone || (!cycles.isEmpty && decide (t.rsp = l.expect))

/-- The state a script leaves, line by line, if every line has an expansion, no event is refused and every written
response is met (30_encoding.md R80, R81). -/
def scriptRun : Option Nat → List ScriptLine → State → Option State
  | _, [], s => some s
  | prev, l :: rest, s =>
    match l.event.expand prev with
    | none => none
    | some e =>
      match runChecked e.cycles s with
      | none => none
      | some t => if l.met e.cycles t then scriptRun e.prev rest t else none

/-- A script holds from a state. -/
def scriptHolds (script : List ScriptLine) (s : State) : Bool := (scriptRun none script s).isSome

end Sys2Proof.Machine
end

