-- ==== Sys2Proof/Safety.lean ====
section
/-! DEFINITION. What counts as a safe run: the invariant of the reachable states (10_state.md R29), the contract
under which no event is refused (60_exceptions.md R160), and the words statements about sequences of events use. -/

namespace Sys2Proof.Machine

/-- I1 to I5 of 10_state.md R29 for an instance that exists. -/
structure Decoder.Inv (d : Decoder) : Prop where
  /-- I1. -/
  stepRange : -2 ≤ d.step.toInt ∧ d.step.toInt ≤ 32
  /-- I2. -/
  haltLatched : d.halt = true → d.step.toInt = -2 ∧ d.err = true ∧ d.word = 0
  /-- I3. -/
  leaderEmpty : d.step.toInt < 0 → d.word = 0
  /-- I4. -/
  wordBound : 0 ≤ d.step.toInt → d.word.toNat < 2 ^ d.step.toInt.toNat
  /-- I5. -/
  acquiringRuns : 0 ≤ d.step.toInt → d.halt = false

/-- The invariant of the machine: an instance, where there is one, satisfies I1 to I5 (10_state.md R29). -/
def State.Inv (s : State) : Prop := ∀ d, s.decoder = some d → d.Inv

/-- The contract on an event (60_exceptions.md R160): no ENABLE on a present instance, and no EDGE on one whose
clock runs backwards. -/
def InContract (i : Instr) (s : State) : Prop :=
  match i with
  | .edge now => ∀ d, s.decoder = some d → d.last ≤ now
  | .enable _ => s.decoder = none
  | .nop | .disable | .reset | .isFinished | .isError | .getAddress | .getCommand | .reserved _ => True

/-- The host's read-only requests and the requests that do nothing: they never write `word`, `step`, `last`, `halt`,
`pin` or `present` (41_queries_and_framer.md R131). -/
def isQuiet : Instr → Bool
  | .nop | .isFinished | .isError | .getAddress | .getCommand | .reserved _ => true
  | .edge _ | .enable _ | .disable | .reset => false

/-- The events that neither create, destroy nor reinitialise the instance: edges and quiet requests. -/
def isAcquisition : Instr → Bool
  | .edge _ => true
  | i => isQuiet i

/-- The timestamps of the edges among some events. -/
def edgeTimes : List Instr → List Time
  | [] => []
  | .edge now :: rest => now :: edgeTimes rest
  | _ :: rest => edgeTimes rest

/-- A state is reached from power-on by some sequence of stimuli none of which is refused (10_state.md R29). -/
def Reached (s : State) : Prop :=
  ∃ (inputs : List Stimulus) (n : Nat), Sys2Proof.core.run n { State.reset with inputs := inputs } = .next s

/-- An instance without its `err`. -/
def Decoder.dropErr (d : Decoder) : Decoder := { d with err := false }

/-- An instance without its `pin`. -/
def Decoder.dropPin (d : Decoder) : Decoder := { d with pin := 0 }

/-- An outcome without the `pin` of its instance. -/
def Result.dropPin : Result → Result
  | .next s => .next { s with decoder := s.decoder.map Decoder.dropPin }
  | .fault r => .fault r
  | .refused r => .refused r

/-- The events of a list that are edges. -/
def edgesOnly (es : List Instr) : List Instr := es.filter fun i => decide (i.agent = .line)

/-- The phase that follows, as the transition table gives it (40_edge_acquisition.md R109). `inWindow` says whether
the gap of an EDGE lies in 13000 to 14000. -/
def tablePhase (i : Instr) (inWindow : Bool) (p : Phase) : Phase :=
  match i, p with
  | .enable _, .absent => .leadingGap
  | .edge _, .leadingGap => .leadingPulse
  | .edge _, .leadingPulse => if inWindow then .bit 0 else .error
  | .edge _, .bit k => if k < 31 then .bit (k + 1) else .done
  | .reset, .absent => .absent
  | .reset, _ => .leadingGap
  | .disable, _ => .absent
  | _, q => q

end Sys2Proof.Machine
end

