-- ==== Sys2Proof/Certificates/Slice0/Obligations.lean ====
section
/-! DEFINITION. The statements about the model, for the provers. Each formalises the rules of `spec/` that its
docstring cites; `OBLIGATIONS.json` lists them. -/

open Sys2Proof Sys2Proof.Machine

/-! ## Reset and the lifecycle of the instance -/

/-- 10_state.md R34: the four columns of the table (power-on, ENABLE, RESET, DISABLE). -/
def Obligations.ResetValuesOfEveryField : Prop :=
  State.reset.decoder = none ∧
  (∀ s : State, s.powerOn.decoder = none) ∧
  (∀ (s : State) (p : Pin), s.decoder = none →
    exec (.enable p) s = .next { s with
      decoder := some { pin := p, word := 0, step := -2, last := 0, err := false, halt := false }, rsp := none }) ∧
  (∀ (s : State) (d : Decoder), s.decoder = some d →
    exec .reset s = .next { s with
      decoder := some { pin := d.pin, word := 0, step := -2, last := 0, err := false, halt := false }, rsp := none }) ∧
  (∀ s : State, exec .disable s = .next { s with decoder := none, rsp := none })

/-- 42_lifecycle.md R140: ENABLE on an absent instance writes every field, and `armed` and `pin_sel` follow. -/
def Obligations.EnableCreatesFreshInstance : Prop :=
  ∀ (s : State) (p : Pin), s.decoder = none →
    ∃ t, exec (.enable p) s = .next t ∧
      t = { s with
        decoder := some { pin := p, word := 0, step := -2, last := 0, err := false, halt := false }, rsp := none } ∧
      t.armed = true ∧ t.pinSel = p

/-- 42_lifecycle.md R141: ENABLE on a present instance is refused, whichever pin it names. -/
def Obligations.EnableOnPresentIsRefused : Prop :=
  ∀ (s : State) (d : Decoder) (p : Pin), s.decoder = some d → exec (.enable p) s = .refused .enableOnPresent

/-- 42_lifecycle.md R142, R143: DISABLE ends the instance in any phase, the outputs follow, and on an absent
instance it changes nothing. -/
def Obligations.DisableEndsTheInstance : Prop :=
  ∀ s : State, ∃ t, exec .disable s = .next t ∧ t = { s with decoder := none, rsp := none } ∧
    t.armed = false ∧ t.finished = false ∧ t.errorOut = true ∧
    (s.decoder = none → t = { s with rsp := none })

/-- 42_lifecycle.md R144: a later ENABLE makes a new instance, of which nothing depends on the old one. -/
def Obligations.NothingSurvivesDisable : Prop :=
  ∀ (s : State) (p : Pin),
    execAll [.disable, .enable p] s = .next { s with
      decoder := some { pin := p, word := 0, step := -2, last := 0, err := false, halt := false }, rsp := none }

/-- 42_lifecycle.md R145: RESET on a present instance, in any phase; `present`, `pin`, `armed` and `pin_sel` stay. -/
def Obligations.ResetReinitialisesInPlace : Prop :=
  ∀ (s : State) (d : Decoder), s.decoder = some d →
    ∃ t, exec .reset s = .next t ∧
      t = { s with
        decoder := some { d with word := 0, step := -2, last := 0, err := false, halt := false }, rsp := none } ∧
      t.armed = s.armed ∧ t.pinSel = s.pinSel

/-- 42_lifecycle.md R147: after RESET IS_FINISHED and IS_ERROR answer 0, every later response and transition is that of
a freshly enabled instance (of any pin), whatever events follow, and RESET twice is RESET once. -/
def Obligations.ResetBehavesAsFreshEnable : Prop :=
  (∀ (s : State) (d : Decoder) (p : Pin) (es : List Instr), s.decoder = some d →
    (execAll (.reset :: es) s).dropPin = (execAll (.disable :: .enable p :: es) s).dropPin) ∧
  (∀ (s : State) (d : Decoder), s.decoder = some d →
    (∃ t, execAll [.reset, .isFinished] s = .next t ∧ t.rsp = some 0) ∧
    (∃ t, execAll [.reset, .isError] s = .next t ∧ t.rsp = some 0)) ∧
  (∀ s : State, execAll [.reset, .reset] s = exec .reset s)

/-- 42_lifecycle.md R148, R149, 30_encoding.md R77: NOP and the eight reserved words change nothing and drive no
response, in every phase. -/
def Obligations.NopAndReservedChangeNothing : Prop :=
  ∀ s : State, exec .nop s = .next { s with rsp := none } ∧
    ∀ op : Op, 8 ≤ op.toNat → exec (.reserved op) s = .next { s with rsp := none }

/-- 40_edge_acquisition.md R100, 41_queries_and_framer.md R127, 42_lifecycle.md R143, R146: what an absent instance
answers; no precondition applies to EDGE. -/
def Obligations.AbsentInstanceDefaults : Prop :=
  ∀ s : State, s.decoder = none →
    (∀ now, exec (.edge now) s = .next { s with rsp := none }) ∧
    exec .disable s = .next { s with rsp := none } ∧
    exec .reset s = .next { s with rsp := none } ∧
    exec .getAddress s = .next { s with rsp := some 0x0000 } ∧
    exec .getCommand s = .next { s with rsp := some 0x0000 }

/-! ## The EDGE operation -/

/-- 40_edge_acquisition.md R91: an EDGE is refused exactly when the instance is present and `now < last`; equality
is allowed, and the first edge after ENABLE or RESET always qualifies. -/
def Obligations.BackwardClockIsRefused : Prop :=
  (∀ (s : State) (d : Decoder) (now : Time), s.decoder = some d →
    (now.toNat < d.last.toNat → exec (.edge now) s = .refused .clockBackwards) ∧
    (d.last.toNat ≤ now.toNat → ∃ t, exec (.edge now) s = .next t)) ∧
  (∀ (s : State) (p : Pin) (now : Time), s.decoder = none → ∃ t, execAll [.enable p, .edge now] s = .next t) ∧
  (∀ (s : State) (d : Decoder) (now : Time), s.decoder = some d → ∃ t, execAll [.reset, .edge now] s = .next t)

/-- 40_edge_acquisition.md R93: the first edge only sets the reference. -/
def Obligations.FirstEdgeSetsTheReference : Prop :=
  ∀ (s : State) (d : Decoder) (now : Time), s.decoder = some d → d.halt = false → d.step = -2 → d.last ≤ now →
    exec (.edge now) s = .next { s with decoder := some { d with last := now, step := -1 }, rsp := none }

/-- 40_edge_acquisition.md R94, R101: a leader pulse of 13000 to 14000 µs, both included, is accepted. -/
def Obligations.LeaderInWindowIsAccepted : Prop :=
  ∀ (s : State) (d : Decoder) (now : Time), s.decoder = some d → d.halt = false → d.step = -1 → d.last ≤ now →
    13000 ≤ now.toNat - d.last.toNat → now.toNat - d.last.toNat ≤ 14000 →
    exec (.edge now) s = .next { s with decoder := some { d with last := now, step := 0 }, rsp := none }

/-- 40_edge_acquisition.md R95: any other leader pulse latches the framing error; a flag that was already set stays
set, and the phase is then ERROR. -/
def Obligations.LeaderOutsideWindowLatchesFramingError : Prop :=
  ∀ (s : State) (d : Decoder) (now : Time), s.decoder = some d → d.halt = false → d.step = -1 → d.last ≤ now →
    (now.toNat - d.last.toNat < 13000 ∨ 14000 < now.toNat - d.last.toNat) →
    ∃ t, exec (.edge now) s = .next t ∧ t.phase = .error ∧
      t = { s with
        decoder := some { d with last := now, err := true, halt := true, step := -2 }, rsp := none }

/-- 40_edge_acquisition.md R96, R102: a bit gap strictly greater than 1600 µs shifts a 1 in, any other a 0, and the
counter advances; no gap is an error. -/
def Obligations.BitEdgeShiftsOneBitIn : Prop :=
  ∀ (s : State) (d : Decoder) (now : Time), s.decoder = some d → d.halt = false →
    0 ≤ d.step.toInt → d.step.toInt ≤ 31 → d.last ≤ now →
    exec (.edge now) s = .next { s with
      decoder := some { d with
        last := now
        word := (d.word <<< 1) ||| (if 1600 < now.toNat - d.last.toNat then 1 else 0)
        step := d.step + 1 }
      rsp := none }

/-- 40_edge_acquisition.md R97, R98, R99: in DONE, in ERROR and for an out-of-range `step` an edge writes `last` and
nothing else. -/
def Obligations.TerminalPhasesOnlyStampTheEdge : Prop :=
  ∀ (s : State) (d : Decoder) (now : Time), s.decoder = some d → d.last ≤ now →
    (d.halt = true ∨ d.step.toInt < -2 ∨ 32 ≤ d.step.toInt) →
    exec (.edge now) s = .next { s with decoder := some { d with last := now }, rsp := none }

/-- 40_edge_acquisition.md R103: the accumulator shifts first and inserts afterwards, which is doubling and adding
modulo 2^32. -/
def Obligations.AccumulatorDoublesAndAdds : Prop :=
  ∀ (w : Word) (b : Bool),
    acc w b = (w <<< 1) ||| (if b then 1 else 0) ∧ (acc w b).toNat = (2 * w.toNat + b.toNat) % 2 ^ 32

/-- 40_edge_acquisition.md R104: the closed form of a frame, with the host's queries interleaved at will. From a
fresh or reset instance, 34 edges with times that do not decrease: if the second gap lies in the window the frame
completes, bit `31 - i` of the word is 1 exactly if gap `i + 3` exceeds 1600, and `err` is unchanged unless a query set
it; otherwise the framing error is latched after the second edge and stays. -/
def Obligations.FrameClosedForm : Prop :=
  ∀ (s : State) (d : Decoder) (es : List Instr) (ts : List Time),
    s.decoder = some d → d.halt = false → d.step = -2 → d.word = 0 →
    (∀ i ∈ es, isAcquisition i = true) → edgeTimes es = ts → ts.length = 34 → (d.last :: ts).Pairwise (· ≤ ·) →
    (13000 ≤ ts[1]!.toNat - ts[0]!.toNat → ts[1]!.toNat - ts[0]!.toNat ≤ 14000 →
      ∃ t d', execAll es s = .next t ∧ t.decoder = some d' ∧
        d'.step = 32 ∧ d'.halt = false ∧ d'.last = ts[33]! ∧ d'.pin = d.pin ∧
        (∀ i < 32, d'.word.getLsbD (31 - i) = decide (1600 < ts[i + 2]!.toNat - ts[i + 1]!.toNat)) ∧
        ((∀ i ∈ es, isQuiet i = false) → d'.err = d.err)) ∧
    ((ts[1]!.toNat - ts[0]!.toNat < 13000 ∨ 14000 < ts[1]!.toNat - ts[0]!.toNat) →
      (∃ t, execAll [.edge ts[0]!, .edge ts[1]!] s = .next t ∧
        t.decoder = some { d with last := ts[1]!, step := -2, halt := true, err := true }) ∧
      ∃ t, execAll es s = .next t ∧
        t.decoder = some { d with last := ts[33]!, step := -2, halt := true, err := true })

/-- 30_encoding.md R81 with 95_test_vectors.md S1: the 34 edges of `FRAME t0 L w g0 g1`, for every 32-bit word, on a
fresh or reset instance, leave exactly `w` in the accumulator and no error. -/
def Obligations.ScriptFrameDecodesItsWord : Prop :=
  ∀ (s : State) (d : Decoder) (t0 L g0 g1 : Nat) (w : Word),
    s.decoder = some d → d.halt = false → d.step = -2 → d.word = 0 → d.last.toNat ≤ t0 →
    13000 ≤ L → L ≤ 14000 → g0 ≤ 1600 → 1600 < g1 → t0 + L + 32 * g1 < 2 ^ 64 →
    ∃ t d', execAll ((frameTimes t0 L w g0 g1).map fun x => .edge (BitVec.ofNat 64 x)) s = .next t ∧
      t.decoder = some d' ∧ d'.word = w ∧ d'.step = 32 ∧ d'.err = d.err ∧ d'.halt = false ∧ d'.pin = d.pin

/-- 40_edge_acquisition.md R109: every way the phase can change, complete. -/
def Obligations.PhaseTransitionTable : Prop :=
  ∀ (i : Instr) (s t : State), exec i s = .next t →
    (s.decoder = none → ∀ g, t.phase = tablePhase i g s.phase) ∧
    (∀ d, s.decoder = some d → ∀ now, i = .edge now →
      t.phase = tablePhase i (decide (13000 ≤ now.toNat - d.last.toNat ∧ now.toNat - d.last.toNat ≤ 14000)) s.phase) ∧
    ((∀ now, i ≠ .edge now) → ∀ g, t.phase = tablePhase i g s.phase)

/-! ## Queries and the framer -/

/-- 41_queries_and_framer.md R120: the answer, and no state change. -/
def Obligations.IsFinishedAnswersStepThirtyTwo : Prop :=
  ∀ s : State,
    (∀ d, s.decoder = some d → exec .isFinished s = .next { s with rsp := some (if d.step = 32 then 1 else 0) }) ∧
    (s.decoder = none → exec .isFinished s = .next { s with rsp := some 0 })

/-- 41_queries_and_framer.md R121: the answer, and no state change. -/
def Obligations.IsErrorAnswersTheFlag : Prop :=
  ∀ s : State,
    (∀ d, s.decoder = some d → exec .isError s = .next { s with rsp := some (if d.err then 1 else 0) }) ∧
    (s.decoder = none → exec .isError s = .next { s with rsp := some 1 })

/-- 41_queries_and_framer.md R122, R130: the compact form where `word[23:16]` is the complement of `word[31:24]`, the
extended form otherwise; no flag and no field changes. -/
def Obligations.GetAddressOnFinishedInstance : Prop :=
  ∀ (s : State) (d : Decoder), s.decoder = some d → d.step = 32 →
    exec .getAddress s = .next { s with
      rsp := some (if d.word.extractLsb 23 16 = ~~~ d.word.extractLsb 31 24 then (d.word.extractLsb 23 16).setWidth 16
        else d.word.extractLsb 31 16) }

/-- 41_queries_and_framer.md R124, R125: the low byte is always returned; `err` is set exactly if it is not the
complement of `word[15:8]`, and nothing else changes. -/
def Obligations.GetCommandOnFinishedInstance : Prop :=
  ∀ (s : State) (d : Decoder), s.decoder = some d → d.step = 32 →
    exec .getCommand s = .next { s with
      decoder := some { d with
        err := if d.word.extractLsb 7 0 = ~~~ d.word.extractLsb 15 8 then d.err else true }
      rsp := some ((d.word.extractLsb 7 0).setWidth 16) }

/-- 41_queries_and_framer.md R123, R126, 60_exceptions.md R163: extraction before completion, in ERROR too, sets `err`
and answers 0. -/
def Obligations.EarlyExtractionIsUsageError : Prop :=
  ∀ (s : State) (d : Decoder), s.decoder = some d → d.step ≠ 32 →
    exec .getAddress s = .next { s with decoder := some { d with err := true }, rsp := some 0x0000 } ∧
    exec .getCommand s = .next { s with decoder := some { d with err := true }, rsp := some 0x0000 }

/-- 20_memory.md R59: every query, issued twice in a row, answers the same and leaves the state as the first left
it. -/
def Obligations.QueriesAreIdempotent : Prop :=
  ∀ (i : Instr) (s : State), i = .isFinished ∨ i = .isError ∨ i = .getAddress ∨ i = .getCommand →
    ∃ t, exec i s = .next t ∧ exec i t = .next t

/-- 41_queries_and_framer.md R128: the ways in which each extraction answers 0. -/
def Obligations.ZeroAnswersOfTheExtractions : Prop :=
  ∀ s t : State,
    (exec .getAddress s = .next t → (t.rsp = some 0 ↔ s.decoder = none ∨ ∃ d, s.decoder = some d ∧ (d.step ≠ 32 ∨
      (d.word.extractLsb 31 24 = 0xFF#8 ∧ d.word.extractLsb 23 16 = 0x00#8) ∨
      (d.word.extractLsb 31 24 = 0x00#8 ∧ d.word.extractLsb 23 16 = 0x00#8)))) ∧
    (exec .getCommand s = .next t → (t.rsp = some 0 ↔ s.decoder = none ∨ ∃ d, s.decoder = some d ∧ (d.step ≠ 32 ∨
      d.word.extractLsb 7 0 = 0x00#8)))

/-- 41_queries_and_framer.md R131: an acquisition that the contract accepts does not depend on the host's queries. Take
the queries out of any sequence of edges and quiet requests: the edges alone run, and the two end in the same instance
but for `err`. -/
def Obligations.QueriesDoNotDisturbAcquisition : Prop :=
  ∀ (es : List Instr) (s t : State), (∀ i ∈ es, isAcquisition i = true) → execAll es s = .next t →
    ∃ u, execAll (edgesOnly es) s = .next u ∧ u.decoder.map Decoder.dropErr = t.decoder.map Decoder.dropErr

/-- 41_queries_and_framer.md R133: after the read-out of a finished frame IS_ERROR answers 1 exactly if the command
check failed or an earlier error was recorded. -/
def Obligations.ReadOutReportsTheCheck : Prop :=
  ∀ (s : State) (d : Decoder), s.decoder = some d → d.step = 32 →
    ∃ t, execAll [.isFinished, .getAddress, .getCommand, .isError] s = .next t ∧
      (t.rsp = some 1 ↔ d.err = true ∨ d.word.extractLsb 7 0 ≠ ~~~ d.word.extractLsb 15 8) ∧
      (t.rsp = some 0 ↔ d.err = false ∧ d.word.extractLsb 7 0 = ~~~ d.word.extractLsb 15 8)

/-! ## Flags -/

/-- 10_state.md R25: the exact condition under which `err` is 1 after an operation (sticky, set by the listed causes,
cleared by RESET and by ENABLE only), and what reads it. -/
def Obligations.ErrorFlagSetAndCleared : Prop :=
  (∀ (i : Instr) (s t : State) (d' : Decoder), s.decoder = none → exec i s = .next t → t.decoder = some d' →
    (∃ p, i = .enable p) ∧ d'.err = false) ∧
  ∀ (i : Instr) (s t : State) (d d' : Decoder), s.decoder = some d → exec i s = .next t → t.decoder = some d' →
    (d'.err = true ↔ i ≠ .reset ∧ (d.err = true ∨
      (∃ now, i = .edge now ∧ d.halt = false ∧ d.step = -1 ∧
        (now.toNat - d.last.toNat < 13000 ∨ 14000 < now.toNat - d.last.toNat)) ∨
      ((i = .getAddress ∨ i = .getCommand) ∧ d.step ≠ 32) ∨
      (i = .getCommand ∧ d.step = 32 ∧ d.word.extractLsb 7 0 ≠ ~~~ d.word.extractLsb 15 8))) ∧
    t.errorOut = d'.err ∧ exec .isError t = .next { t with rsp := some (if d'.err then 1 else 0) }

/-- 10_state.md R26: `halt` is set by the event of a framing error and by nothing else, and cleared by RESET. -/
def Obligations.HaltMarksTheFramingError : Prop :=
  ∀ (i : Instr) (s t : State) (d d' : Decoder), s.decoder = some d → exec i s = .next t → t.decoder = some d' →
    (d'.halt = true ↔ i ≠ .reset ∧ (d.halt = true ∨
      (∃ now, i = .edge now ∧ d.step = -1 ∧
        (now.toNat - d.last.toNat < 13000 ∨ 14000 < now.toNat - d.last.toNat))))

/-! ## Frames: what each operation leaves unchanged -/

/-- 10_state.md R33, the line agent's rows: an EDGE never creates or ends an instance, never writes `pin`, writes
`word` in a BIT phase only, `err` and `halt` in LEADING_PULSE only, `step` in the acquiring phases only, and `last`
always. -/
def Obligations.EdgeFrame : Prop :=
  ∀ (s t : State) (now : Time), exec (.edge now) s = .next t →
    t.inputs = s.inputs ∧ t.ticks = s.ticks ∧ t.rsp = none ∧
    (s.decoder = none → t.decoder = none) ∧
    (∀ d, s.decoder = some d → ∃ d', t.decoder = some d' ∧ d'.last = now ∧ d'.pin = d.pin ∧
      ((∀ k, s.phase ≠ .bit k) → d'.word = d.word) ∧
      (s.phase ≠ .leadingPulse → d'.err = d.err ∧ d'.halt = d.halt) ∧
      (s.phase = .done ∨ s.phase = .error ∨ s.phase = .outOfRange → d'.step = d.step))

/-- 10_state.md R33, the host's query rows, NOP and the reserved words: nothing but `err` and the response port can
change, and `err` only by GET_ADDRESS and GET_COMMAND. -/
def Obligations.QuietRequestFrame : Prop :=
  ∀ (i : Instr) (s t : State), isQuiet i = true → exec i s = .next t →
    t.inputs = s.inputs ∧ t.ticks = s.ticks ∧
    (s.decoder = none → t.decoder = none) ∧
    (∀ d, s.decoder = some d → ∃ e, t.decoder = some { d with err := e } ∧ (d.err = true → e = true) ∧
      (i ≠ .getAddress → i ≠ .getCommand → e = d.err))

/-- 10_state.md R33, R21, the lifecycle rows: RESET keeps `present` and `pin`, and none of the three touches anything
outside the instance and the response port. -/
def Obligations.LifecycleFrame : Prop :=
  ∀ (i : Instr) (s t : State), i = .reset ∨ i = .disable ∨ (∃ p, i = .enable p) → exec i s = .next t →
    t.inputs = s.inputs ∧ t.ticks = s.ticks ∧ t.rsp = none ∧
    (i = .reset → t.present = s.present ∧ t.decoder.map Decoder.pin = s.decoder.map Decoder.pin)

/-! ## The ports -/

/-- 30_encoding.md R75: the status outputs, and that `finished` and `error` are the continuous forms of IS_FINISHED and
IS_ERROR. -/
def Obligations.StatusOutputsFollowTheState : Prop :=
  ∀ s : State,
    (∀ d, s.decoder = some d →
      s.finished = decide (d.step = 32) ∧ s.errorOut = d.err ∧ s.armed = true ∧ s.pinSel = d.pin) ∧
    (s.decoder = none → s.finished = false ∧ s.errorOut = true ∧ s.armed = false) ∧
    (∃ t, exec .isFinished s = .next t ∧ t.rspPort = if s.finished then 0x0001 else 0x0000) ∧
    (∃ t, exec .isError s = .next t ∧ t.rspPort = if s.errorOut then 0x0001 else 0x0000)

/-- 30_encoding.md R76: `rsp_valid` is 1 after exactly the four operations with a response. -/
def Obligations.ResponseValidExactlyForQueries : Prop :=
  ∀ (i : Instr) (s t : State), exec i s = .next t →
    (t.rspValid = true ↔ i = .isFinished ∨ i = .isError ∨ i = .getAddress ∨ i = .getCommand)

/-! ## Encoding, and what a step runs -/

/-- 30_encoding.md R71 to R73: the cycle of a well-formed event decodes to that event alone, with every operand; and a
cycle that decodes to one event is that event's cycle on every port the event reads. -/
def Obligations.DecodeAndEncodeAgree : Prop :=
  (∀ i : Instr, i.wellFormed = true → decode (encode i) = [i]) ∧
  (∀ (c : Cycle) (i : Instr), decode c = [i] → i.wellFormed = true ∧
    encode i = { c with
      now := if c.edgeStb then c.now else 0
      pinIn := if c.edgeStb = false ∧ c.reqOp = 0b0001#4 then c.pinIn else 0 })

/-- 30_encoding.md R73: words of the opcode map and of format E, written out. -/
def Obligations.OpcodeMapWords : Prop :=
  decode { edgeStb := true, now := 5000, reqOp := 0b0000, pinIn := 9 } = [.edge 5000] ∧
  decode { edgeStb := false, now := 5000, reqOp := 0b0000, pinIn := 9 } = [.nop] ∧
  decode { edgeStb := false, now := 5000, reqOp := 0b0001, pinIn := 9 } = [.enable 9] ∧
  decode { edgeStb := false, now := 5000, reqOp := 0b0110, pinIn := 9 } = [.getAddress] ∧
  decode { edgeStb := false, now := 5000, reqOp := 0b1010, pinIn := 9 } = [.reserved 0b1010] ∧
  decode { edgeStb := true, now := 5000, reqOp := 0b0111, pinIn := 9 } = [.edge 5000, .getCommand]

/-- A step runs the decoded event: one event, or the edge and then the request (20_memory.md R57); an assertion of
`rst_n` is a power-on (log 18); with nothing listed the ports are idle (log 2: the model's choice). -/
def Obligations.StepRunsTheDecodedEvents : Prop :=
  (∀ (s : State) (c : Cycle) (rest : List Stimulus) (i : Instr), s.inputs = .clk c :: rest → decode c = [i] →
    step s = exec i { s with inputs := rest, ticks := s.ticks + 1 }) ∧
  (∀ (s : State) (c : Cycle) (rest : List Stimulus) (i j : Instr), s.inputs = .clk c :: rest → decode c = [i, j] →
    step s = execAll [i, j] { s with inputs := rest, ticks := s.ticks + 1 }) ∧
  (∀ (s : State) (rest : List Stimulus), s.inputs = .rst :: rest →
    step s = .next { s with decoder := none, rsp := none, inputs := rest, ticks := s.ticks + 1 }) ∧
  (∀ s : State, s.inputs = [] → step s = .next { s with rsp := none, ticks := s.ticks + 1 })

/-- 30_encoding.md R79: the decode text, literally, for every value of the ports: the edge if there is one, then the
case of `req_op`, where `1xxx` is NOP. (A cycle whose edge is refused is refused: log 29, and
`StepRunsTheDecodedEvents`.) -/
def Obligations.CycleFollowsTheDecodeRule : Prop :=
  ∀ (s : State) (c : Cycle) (request : State → Result),
    (∀ u, request u =
      match c.reqOp.toNat with
      | 0 => exec .nop u
      | 1 => exec (.enable c.pinIn) u
      | 2 => exec .disable u
      | 3 => exec .reset u
      | 4 => exec .isFinished u
      | 5 => exec .isError u
      | 6 => exec .getAddress u
      | 7 => exec .getCommand u
      | _ => exec .nop u) →
    (c.edgeStb = false → runCycle c s = request s) ∧
    (c.edgeStb = true → ∀ u, exec (.edge c.now) s = .next u → runCycle c s = request u)

/-- The word of the opcode table that the host places is the one the next step runs (log 3: the model's choice). -/
def Obligations.PlacedTableWordRunsNext : Prop :=
  ∀ (s : State) (nbits w : Nat) (i : Instr), decodeTableWord nbits w = some i →
    step (s.withFetchWord nbits w) = exec i { s with ticks := s.ticks + 1 }

/-- 60_exceptions.md R165: an EDGE that completes the frame, followed in the same cycle by GET_COMMAND, is a valid
read. -/
def Obligations.CompletingEdgeThenReadInOneCycle : Prop :=
  ∀ (s : State) (d : Decoder) (now : Time) (b : Bool), s.decoder = some d → d.halt = false → d.step = 31 →
    d.last ≤ now → b = decide (1600 < now.toNat - d.last.toNat) →
    ∃ t d', runCycle (encodeBoth now .getCommand) s = .next t ∧ t.decoder = some d' ∧ d'.step = 32 ∧
      d'.word = (d.word <<< 1) ||| (if b then 1 else 0) ∧ t.rsp = some ((d'.word.extractLsb 7 0).setWidth 16) ∧
      d'.err = if d'.word.extractLsb 7 0 = ~~~ d'.word.extractLsb 15 8 then d.err else true

/-! ## The whole machine -/

/-- 60_exceptions.md R160, 42_lifecycle.md R150: an event completes exactly when it is in the contract, and otherwise it
is refused for the reason the two rules name. -/
def Obligations.EventsCompleteExactlyInContract : Prop :=
  ∀ (i : Instr) (s : State),
    ((∃ t, exec i s = .next t) ↔ InContract i s) ∧
    (¬ InContract i s → (∃ now, i = .edge now ∧ exec i s = .refused .clockBackwards) ∨
      (∃ p, i = .enable p ∧ exec i s = .refused .enableOnPresent))

/-- 10_state.md R29: the machine satisfies I1 to I5 at power-on. -/
def Obligations.InvariantAtPowerOn : Prop := State.reset.Inv

/-- 10_state.md R29: every step, from every state that satisfies I1 to I5, leads to one that does. -/
def Obligations.StepKeepsTheInvariant : Prop := ∀ s t : State, s.Inv → step s = .next t → t.Inv

/-- 10_state.md R29: every state reached from power-on by any sequence of stimuli that is not refused satisfies I1 to
I5. -/
def Obligations.ReachedStatesSatisfyTheInvariant : Prop :=
  ∀ (s : State) (d : Decoder), Reached s → s.decoder = some d →
    (-2 ≤ d.step.toInt ∧ d.step.toInt ≤ 32) ∧
    (d.halt = true → d.step = -2 ∧ d.err = true ∧ d.word = 0) ∧
    (d.step.toInt < 0 → d.word = 0) ∧
    (0 ≤ d.step.toInt → d.word.toNat < 2 ^ d.step.toInt.toNat) ∧
    (0 ≤ d.step.toInt → d.halt = false)

/-- 20_memory.md R62, 70_reset_and_hazards.md R199: once IS_FINISHED answers 1, `word` and `step` do not change and it
goes on answering 1, through any edges and queries, until the host resets, re-enables or disables. The premise on `halt`
is I5 of the invariant. -/
def Obligations.CompletionIsStable : Prop :=
  ∀ (es : List Instr) (s t : State) (d : Decoder), (∀ i ∈ es, isAcquisition i = true) →
    s.decoder = some d → d.step = 32 → d.halt = false → execAll es s = .next t →
    ∃ d' u, t.decoder = some d' ∧ d'.word = d.word ∧ d'.step = 32 ∧ d'.halt = false ∧
      exec .isFinished t = .next u ∧ u.rsp = some 1

/-- 40_edge_acquisition.md R99, 70_reset_and_hazards.md R195: in ERROR the machine stays in ERROR through any edges and
queries, IS_FINISHED answers 0 and IS_ERROR answers 1; RESET and DISABLE are the ways out. The premise on the instance is
the invariant. -/
def Obligations.FramingErrorIsLatched : Prop :=
  ∀ (es : List Instr) (s t : State) (d : Decoder), (∀ i ∈ es, isAcquisition i = true) →
    s.decoder = some d → d.Inv → d.halt = true → execAll es s = .next t →
    t.phase = .error ∧ (∃ now, t.decoder = some { d with last := now }) ∧ d.step = -2 ∧ d.word = 0 ∧ d.err = true ∧
    (∃ u, exec .isFinished t = .next u ∧ u.rsp = some 0) ∧ (∃ u, exec .isError t = .next u ∧ u.rsp = some 1) ∧
    (∃ u, exec .reset t = .next u ∧ u.phase = .leadingGap) ∧ (∃ u, exec .disable t = .next u ∧ u.phase = .absent)

/-- 70_reset_and_hazards.md R198: after a RESET in the middle of a frame the next two edges, closer than a leader pulse,
land the instance in ERROR. -/
def Obligations.MidFrameResetMisframes : Prop :=
  ∀ (s : State) (d : Decoder) (t1 t2 : Time), s.decoder = some d → t1 ≤ t2 → t2.toNat - t1.toNat < 13000 →
    ∃ t, execAll [.reset, .edge t1, .edge t2] s = .next t ∧ t.phase = .error

/-! ## Event scripts -/

/-- 30_encoding.md R81: `GAP`, `AT` and `FRAME` are the lines the table expands them to. -/
def Obligations.PseudoOperationsExpandAsTheTable : Prop :=
  (∀ (t g : Nat) (p : Option Nat), ScriptEvent.expand (some t) (.gap g) = ScriptEvent.expand p (.edge (t + g))) ∧
  (∀ (t : Nat) (p : Option Nat) (rest : List ScriptLine),
    expandScript p ({ event := .at t, expect := none } :: rest) = expandScript (some t) rest) ∧
  (∀ (t0 L g0 g1 : Nat) (w : Word) (p : Option Nat) (rest : List ScriptLine), g0 ≤ 1600 → 1600 < g1 →
    expandScript p ({ event := .frame t0 L w g0 g1, expect := none } :: rest) =
      expandScript p (({ event := .edge t0, expect := none } : ScriptLine) :: { event := .edge (t0 + L), expect := none } ::
        ((List.range 32).map fun i =>
          { event := .gap (if w.getLsbD (31 - i) then g1 else g0), expect := none }) ++ rest))

/-- 30_encoding.md R81: `POLL` is IS_FINISHED repeated until it returns 1. It runs through, with some edges in the pauses,
exactly if IS_FINISHED returns 0 before each pause and 1 after the last; it then leaves the instance the edges leave.
R81 says that POLL's length depends on the interleaving and gives no way to write it: that the line carries its pauses,
that only edges arrive in them, and that it runs through for exactly the right number of them is the model's choice
(DESIGN CHOICE, log 22). -/
def Obligations.PollRepeatsUntilFinished : Prop :=
  ∀ (pauses : List (List Time)) (p : Option Nat) (s t : State),
    scriptRun p [{ event := .poll pauses, expect := none }] s = some t ↔
      (∀ k < pauses.length, ∃ u, execAll ((pauses.take k).flatten.map .edge) s = .next u ∧ u.finished = false) ∧
      (∃ u, execAll (pauses.flatten.map .edge) s = .next u ∧ u.finished = true ∧ t = { u with rsp := some 1 })

/-- 30_encoding.md R80: the response written on a line with a query is the one the query returns, an edge in the same
cycle coming first. Written on a line whose last event has no response, or which emits no event, it is never met: that
clause is the model's choice (log 32). -/
def Obligations.WrittenResponseIsTheOneDriven : Prop :=
  (∀ (i : Instr) (v : Rsp) (p : Option Nat) (s t : State), isScriptRequest i = true →
    (scriptRun p [{ event := .request i, expect := some v }] s = some t ↔ exec i s = .next t ∧ t.rsp = some v)) ∧
  (∀ (i : Instr) (now : Time) (v : Rsp) (p : Option Nat) (s t : State), isScriptRequest i = true → i ≠ .nop →
    (scriptRun p [{ event := .both now.toNat i, expect := some v }] s = some t ↔
      execAll [.edge now, i] s = .next t ∧ t.rsp = some v)) ∧
  (∀ (e : ScriptEvent) (v : Rsp) (p : Option Nat) (s : State),
    ((∃ x, e = .edge x) ∨ (∃ x, e = .gap x) ∨ (∃ x, e = .at x) ∨ (∃ t0 L w g0 g1, e = .frame t0 L w g0 g1) ∨
      (∃ x, e = .both x .nop) ∨ (∃ i, e = .request i ∧ i ∈ [Instr.nop, .disable, .reset]) ∨ ∃ x, e = .request (.enable x)) →
    scriptRun p [{ event := e, expect := some v }] s = none)
end

