-- ==== Sys2Proof/Laws/Operands.lean ====
section
/-! SUPPORT. What the operand and flag functions say in the spec's own words. -/

namespace Sys2Proof.Machine

/-- The register `step` holds its range exactly (10_state.md R23). -/
theorem stepOfInt_toInt {k : Int} (lo : -64 ≤ k) (hi : k < 64) : (stepOfInt k).toInt = k := by
  rw [stepOfInt, BitVec.toInt_ofInt]
  exact Int.bmod_eq_of_le (by omega) (by omega)

/-- A value of the register `step` is known by its integer (10_state.md R23). -/
theorem stepReg_eq_iff (x : StepReg) {k : Int} (lo : -64 ≤ k) (hi : k < 64) : x = BitVec.ofInt 7 k ↔ x.toInt = k := by
  constructor
  · rintro rfl; exact stepOfInt_toInt lo hi
  · intro e; rw [← e, BitVec.ofInt_toInt]

/-- The completion condition on the register itself (41_queries_and_framer.md R120). -/
theorem Decoder.complete_iff (d : Decoder) : d.complete = true ↔ d.step = 32 := by
  rw [Decoder.complete, decide_eq_true_iff]
  exact (stepReg_eq_iff d.step (by decide) (by decide)).symm

/-- The address check byte on slices of the word (41_queries_and_framer.md R122). -/
theorem addressCheck_iff (w : Word) : addressCheck w = true ↔ w.extractLsb 23 16 = ~~~ w.extractLsb 31 24 :=
  decide_eq_true_iff

/-- The command check byte on slices of the word (41_queries_and_framer.md R124, R125). -/
theorem commandCheck_iff (w : Word) : commandCheck w = true ↔ w.extractLsb 7 0 = ~~~ w.extractLsb 15 8 :=
  decide_eq_true_iff

/-- The bit a gap stands for (40_edge_acquisition.md R102). -/
theorem bitOf_eq_true_iff (g : Nat) : bitOf g = true ↔ 1600 < g := decide_eq_true_iff

/-- The leader window, both bounds accepted (40_edge_acquisition.md R101). -/
theorem leaderOk_eq_true_iff (g : Nat) : leaderOk g = true ↔ 13000 ≤ g ∧ g ≤ 14000 := decide_eq_true_iff

/-- An edge is in the contract exactly when its timestamp is not below the newest one (40_edge_acquisition.md R91). -/
theorem clockBackwards_eq_false_iff (now last : Time) : clockBackwards now last = false ↔ last ≤ now := by
  simp [clockBackwards, BitVec.le_def]

/-- The bits of the accumulator after one bit has arrived (40_edge_acquisition.md R103). -/
theorem acc_getLsbD (w : Word) (b : Bool) (i : Nat) (h : i < 32) :
    (acc w b).getLsbD i = if i = 0 then b else w.getLsbD (i - 1) := by
  cases i with
  | zero => cases b <;> simp [acc]
  | succ n => cases b <;> simp [acc, h, show n < 32 by omega, BitVec.getLsbD_eq_getElem]

/-- The four lanes are the word (20_memory.md R54). -/
theorem lanes_eq (w : Word) : laneB3 w ++ laneB2 w ++ laneB1 w ++ laneB0 w = w := by
  ext i hi
  simp only [laneB3, laneB2, laneB1, laneB0, BitVec.getElem_append, BitVec.getElem_extractLsb']
  split
  · simp [BitVec.getLsbD_eq_getElem (show i < 32 by omega)]
  · split
    · simp [show 8 + (i - 8) = i by omega, BitVec.getLsbD_eq_getElem (show i < 32 by omega)]
    · split
      · simp [show 16 + (i - 8 - 8) = i by omega, BitVec.getLsbD_eq_getElem (show i < 32 by omega)]
      · simp [show 24 + (i - 8 - 8 - 8) = i by omega, BitVec.getLsbD_eq_getElem (show i < 32 by omega)]

/-! ## The phase of an instance, from `halt` and `step` (10_state.md R28) -/

theorem Decoder.phase_of_halt {d : Decoder} (h : d.halt = true) : d.phase = .error := by simp [Decoder.phase, h]

theorem Decoder.phase_of_leadingGap {d : Decoder} (h : d.halt = false) (hs : d.step.toInt = -2) :
    d.phase = .leadingGap := by simp [Decoder.phase, h, hs]

theorem Decoder.phase_of_leadingPulse {d : Decoder} (h : d.halt = false) (hs : d.step.toInt = -1) :
    d.phase = .leadingPulse := by simp [Decoder.phase, h, hs]

theorem Decoder.phase_of_bit {d : Decoder} (h : d.halt = false) (lo : 0 ≤ d.step.toInt) (hi : d.step.toInt ≤ 31) :
    d.phase = .bit d.step.toInt.toNat := by
  have h2 : ¬ d.step.toInt = -2 := by omega
  have h1 : ¬ d.step.toInt = -1 := by omega
  have hb : 0 ≤ d.step.toInt ∧ d.step.toInt < 32 := by omega
  simp [Decoder.phase, h, h2, h1, hb]

theorem Decoder.phase_of_done {d : Decoder} (h : d.halt = false) (hs : d.step.toInt = 32) : d.phase = .done := by
  simp only [Decoder.phase, h, hs]; rfl

theorem Decoder.phase_of_outOfRange {d : Decoder} (h : d.halt = false) (hs : d.step.toInt < -2 ∨ 32 < d.step.toInt) :
    d.phase = .outOfRange := by
  have h2 : ¬ d.step.toInt = -2 := by omega
  have h1 : ¬ d.step.toInt = -1 := by omega
  have hb : ¬ (0 ≤ d.step.toInt ∧ d.step.toInt < 32) := by omega
  have h32 : ¬ d.step.toInt = 32 := by omega
  simp [Decoder.phase, h, h2, h1, hb, h32]

end Sys2Proof.Machine
end

