-- ==== Sys2Proof/Laws/State.lean ====
section
/-! SUPPORT. One lemma per field per update of the state and of the instance, each true by `rfl`, so that no proof
unfolds a record update. -/

namespace Sys2Proof.Machine

/-! ## Updates of an instance -/

@[simp] theorem Decoder.stamp_pin (d : Decoder) (now : Time) : (d.stamp now).pin = d.pin := rfl
@[simp] theorem Decoder.stamp_word (d : Decoder) (now : Time) : (d.stamp now).word = d.word := rfl
@[simp] theorem Decoder.stamp_step (d : Decoder) (now : Time) : (d.stamp now).step = d.step := rfl
@[simp] theorem Decoder.stamp_last (d : Decoder) (now : Time) : (d.stamp now).last = now := rfl
@[simp] theorem Decoder.stamp_err (d : Decoder) (now : Time) : (d.stamp now).err = d.err := rfl
@[simp] theorem Decoder.stamp_halt (d : Decoder) (now : Time) : (d.stamp now).halt = d.halt := rfl

@[simp] theorem Decoder.goto_pin (d : Decoder) (k : Int) : (d.goto k).pin = d.pin := rfl
@[simp] theorem Decoder.goto_word (d : Decoder) (k : Int) : (d.goto k).word = d.word := rfl
@[simp] theorem Decoder.goto_step (d : Decoder) (k : Int) : (d.goto k).step = stepOfInt k := rfl
@[simp] theorem Decoder.goto_last (d : Decoder) (k : Int) : (d.goto k).last = d.last := rfl
@[simp] theorem Decoder.goto_err (d : Decoder) (k : Int) : (d.goto k).err = d.err := rfl
@[simp] theorem Decoder.goto_halt (d : Decoder) (k : Int) : (d.goto k).halt = d.halt := rfl

@[simp] theorem Decoder.shiftIn_pin (d : Decoder) (b : Bool) : (d.shiftIn b).pin = d.pin := rfl
@[simp] theorem Decoder.shiftIn_word (d : Decoder) (b : Bool) : (d.shiftIn b).word = acc d.word b := rfl
@[simp] theorem Decoder.shiftIn_step (d : Decoder) (b : Bool) : (d.shiftIn b).step = d.step := rfl
@[simp] theorem Decoder.shiftIn_last (d : Decoder) (b : Bool) : (d.shiftIn b).last = d.last := rfl
@[simp] theorem Decoder.shiftIn_err (d : Decoder) (b : Bool) : (d.shiftIn b).err = d.err := rfl
@[simp] theorem Decoder.shiftIn_halt (d : Decoder) (b : Bool) : (d.shiftIn b).halt = d.halt := rfl

@[simp] theorem Decoder.record_pin (e : ErrorClass) (d : Decoder) : (d.record e).pin = d.pin := by cases e <;> rfl
@[simp] theorem Decoder.record_word (e : ErrorClass) (d : Decoder) : (d.record e).word = d.word := by cases e <;> rfl
@[simp] theorem Decoder.record_last (e : ErrorClass) (d : Decoder) : (d.record e).last = d.last := by cases e <;> rfl
@[simp] theorem Decoder.record_err (e : ErrorClass) (d : Decoder) : (d.record e).err = true := by cases e <;> rfl
@[simp] theorem Decoder.record_framing_halt (d : Decoder) : (d.record .framing).halt = true := rfl
@[simp] theorem Decoder.record_checksum_halt (d : Decoder) : (d.record .checksum).halt = d.halt := rfl
@[simp] theorem Decoder.record_usage_halt (d : Decoder) : (d.record .usage).halt = d.halt := rfl
@[simp] theorem Decoder.record_framing_step (d : Decoder) :
    (d.record .framing).step = stepOfInt Config.stepLeadingGap := rfl
@[simp] theorem Decoder.record_checksum_step (d : Decoder) : (d.record .checksum).step = d.step := rfl
@[simp] theorem Decoder.record_usage_step (d : Decoder) : (d.record .usage).step = d.step := rfl

@[simp] theorem Decoder.reinit_pin (d : Decoder) : d.reinit.pin = d.pin := rfl
@[simp] theorem Decoder.reinit_word (d : Decoder) : d.reinit.word = 0 := rfl
@[simp] theorem Decoder.reinit_step (d : Decoder) : d.reinit.step = stepOfInt Config.stepLeadingGap := rfl
@[simp] theorem Decoder.reinit_last (d : Decoder) : d.reinit.last = 0 := rfl
@[simp] theorem Decoder.reinit_err (d : Decoder) : d.reinit.err = false := rfl
@[simp] theorem Decoder.reinit_halt (d : Decoder) : d.reinit.halt = false := rfl

/-- RESET leaves what ENABLE of the same pin would (42_lifecycle.md R147). -/
theorem Decoder.reinit_eq_fresh (d : Decoder) : d.reinit = Decoder.fresh d.pin := rfl

/-! ## Updates of the state -/

@[simp] theorem State.powerOn_decoder (s : State) : s.powerOn.decoder = none := rfl
@[simp] theorem State.powerOn_rsp (s : State) : s.powerOn.rsp = none := rfl
@[simp] theorem State.powerOn_inputs (s : State) : s.powerOn.inputs = s.inputs := rfl
@[simp] theorem State.powerOn_ticks (s : State) : s.powerOn.ticks = s.ticks := rfl

@[simp] theorem State.advance_decoder (s : State) : s.advance.decoder = s.decoder := rfl
@[simp] theorem State.advance_rsp (s : State) : s.advance.rsp = s.rsp := rfl
@[simp] theorem State.advance_inputs (s : State) : s.advance.inputs = s.inputs.tail := rfl
@[simp] theorem State.advance_ticks (s : State) : s.advance.ticks = s.ticks + 1 := rfl

@[simp] theorem State.feed_decoder (s : State) (x : Stimulus) : (s.feed x).decoder = s.decoder := rfl
@[simp] theorem State.feed_rsp (s : State) (x : Stimulus) : (s.feed x).rsp = s.rsp := rfl
@[simp] theorem State.feed_ticks (s : State) (x : Stimulus) : (s.feed x).ticks = s.ticks := rfl
@[simp] theorem State.feed_nextStimulus (s : State) (x : Stimulus) : (s.feed x).nextStimulus = x := rfl
@[simp] theorem State.feed_advance (s : State) (x : Stimulus) :
    (s.feed x).advance = { s with ticks := s.ticks + 1 } := rfl

end Sys2Proof.Machine
end

