-- ==== Sys2Proof/Laws/Ops.lean ====
section
/-! SUPPORT. Everything the shared operations and the meanings can do, said once: provers cite these instead of
unfolding. -/

namespace Sys2Proof.Machine

/-- How an operation ends (20_memory.md R56). -/
@[simp] theorem State.finish_eq_next_iff (s t : State) (d : Option Decoder) (r : Option Rsp) :
    s.finish d r = .next t ↔ t = { s with decoder := d, rsp := r } := by
  simp [State.finish, eq_comm]

/-- An operation that ends is not refused. -/
@[simp] theorem State.finish_ne_refused (s : State) (d : Option Decoder) (r : Option Rsp) (e : Refusal) :
    s.finish d r ≠ .refused e := nofun

/-- What each arm of EDGE does to a present instance, with the condition that selects it (40_edge_acquisition.md R93
to R99): the six cases are all there are. -/
theorem Decoder.onEdge_cases (d : Decoder) (now : Time) :
    (d.halt = true ∧ d.phase = .error ∧ d.onEdge now = d.stamp now) ∨
    (d.halt = false ∧ d.step.toInt = -2 ∧ d.phase = .leadingGap ∧ d.onEdge now = (d.stamp now).goto (-1)) ∨
    (d.halt = false ∧ d.step.toInt = -1 ∧ d.phase = .leadingPulse ∧ leaderOk (gap now d.last) = true ∧
      d.onEdge now = (d.stamp now).goto 0) ∨
    (d.halt = false ∧ d.step.toInt = -1 ∧ d.phase = .leadingPulse ∧ leaderOk (gap now d.last) = false ∧
      d.onEdge now = (d.stamp now).record .framing) ∨
    (d.halt = false ∧ 0 ≤ d.step.toInt ∧ d.step.toInt ≤ 31 ∧ d.phase = .bit d.step.toInt.toNat ∧
      d.onEdge now = ((d.stamp now).shiftIn (bitOf (gap now d.last))).goto (d.step.toInt + 1)) ∨
    (d.halt = false ∧ (d.step.toInt < -2 ∨ 32 ≤ d.step.toInt) ∧
      d.phase = (if d.step.toInt = 32 then .done else .outOfRange) ∧ d.onEdge now = d.stamp now) := by
  by_cases h : d.halt = true
  · exact .inl ⟨h, by simp [Decoder.phase, h], by simp [Decoder.onEdge, Decoder.phase, h]⟩
  refine .inr ?_
  have h : d.halt = false := by simpa using h
  by_cases h2 : d.step.toInt = -2
  · have p := Decoder.phase_of_leadingGap h h2
    exact .inl ⟨h, h2, p, by simp only [Decoder.onEdge, p]⟩
  refine .inr ?_
  by_cases h1 : d.step.toInt = -1
  · have p := Decoder.phase_of_leadingPulse h h1
    by_cases ok : leaderOk (gap now d.last) = true
    · exact .inl ⟨h, h1, p, ok, by simp only [Decoder.onEdge, p, ok]; rfl⟩
    · have ok : leaderOk (gap now d.last) = false := by simpa using ok
      exact .inr (.inl ⟨h, h1, p, ok, by simp only [Decoder.onEdge, p, ok]; rfl⟩)
  refine .inr (.inr ?_)
  by_cases hb : 0 ≤ d.step.toInt ∧ d.step.toInt ≤ 31
  · have p := Decoder.phase_of_bit h hb.1 hb.2
    refine .inl ⟨h, hb.1, hb.2, p, ?_⟩
    simp only [Decoder.onEdge, p, Int.toNat_of_nonneg hb.1]
  refine .inr ?_
  have p : d.phase = (if d.step.toInt = 32 then .done else .outOfRange) := by
    split
    · exact Decoder.phase_of_done h ‹_›
    · exact Decoder.phase_of_outOfRange h (by omega)
  refine ⟨h, by omega, p, ?_⟩
  simp only [Decoder.onEdge, p]
  split <;> simp_all <;> split at * <;> simp_all

/-- EDGE (40_edge_acquisition.md R90, R91, R100): what it can do when it ends. -/
theorem exec_edge_cases {now : Time} {s t : State} (h : exec (.edge now) s = .next t) :
    (s.decoder = none ∧ t = { s with rsp := none }) ∨
    (∃ d, s.decoder = some d ∧ d.last ≤ now ∧ t = { s with decoder := some (d.onEdge now), rsp := none }) := by
  simp only [exec, execEdge] at h
  cases hd : s.decoder with
  | none => simp only [hd, State.finish_eq_next_iff] at h; exact .inl ⟨rfl, by rw [h, ← hd]⟩
  | some d =>
    cases hb : clockBackwards now d.last with
    | true => simp [hd, hb] at h
    | false =>
      simp only [hd, hb] at h
      exact .inr ⟨d, rfl, (clockBackwards_eq_false_iff _ _).1 hb, by simpa using h⟩

/-- EDGE on an absent instance (40_edge_acquisition.md R100). -/
theorem exec_edge_absent {s : State} (hd : s.decoder = none) (now : Time) :
    exec (.edge now) s = .next { s with rsp := none } := by
  rcases s with ⟨_ | d, r, i, k⟩
  · rfl
  · cases hd

/-- EDGE on a present instance under the contract (40_edge_acquisition.md R90). -/
theorem exec_edge_present {now : Time} {s : State} {d : Decoder} (hd : s.decoder = some d) (hl : d.last ≤ now) :
    exec (.edge now) s = .next { s with decoder := some (d.onEdge now), rsp := none } := by
  simp [exec, execEdge, hd, (clockBackwards_eq_false_iff _ _).2 hl, State.finish]

/-- IS_FINISHED answers the `finished` output and changes nothing (41_queries_and_framer.md R120). -/
theorem exec_isFinished (s : State) : exec .isFinished s = .next { s with rsp := some (rspOfBool s.finished) } := by
  rcases s with ⟨_ | d, r, i, k⟩ <;> rfl

/-- IS_ERROR answers the `error` output and changes nothing (41_queries_and_framer.md R121). -/
theorem exec_isError (s : State) : exec .isError s = .next { s with rsp := some (rspOfBool s.errorOut) } := by
  rcases s with ⟨_ | d, r, i, k⟩ <;> rfl

/-- GET_ADDRESS on an absent instance (41_queries_and_framer.md R127). -/
theorem exec_getAddress_absent {s : State} (hd : s.decoder = none) :
    exec .getAddress s = .next { s with rsp := some 0 } := by
  rcases s with ⟨_ | d, r, i, k⟩
  · rfl
  · cases hd

/-- GET_COMMAND on an absent instance (41_queries_and_framer.md R127). -/
theorem exec_getCommand_absent {s : State} (hd : s.decoder = none) :
    exec .getCommand s = .next { s with rsp := some 0 } := by
  rcases s with ⟨_ | d, r, i, k⟩
  · rfl
  · cases hd

/-- GET_ADDRESS on a present instance, both arms (41_queries_and_framer.md R122, R123). -/
theorem exec_getAddress_present {s : State} {d : Decoder} (hd : s.decoder = some d) :
    exec .getAddress s = .next { s with
      decoder := some (if d.complete then d else d.record .usage)
      rsp := some (if d.complete then addressOf d.word else 0) } := by
  cases hc : d.complete <;> simp [exec, execGetAddress, hd, hc, State.finish]

/-- GET_COMMAND on a present instance, all three arms (41_queries_and_framer.md R124 to R126). -/
theorem exec_getCommand_present {s : State} {d : Decoder} (hd : s.decoder = some d) :
    exec .getCommand s = .next { s with
      decoder := some (if d.complete then (if commandCheck d.word then d else d.record .checksum) else d.record .usage)
      rsp := some (if d.complete then rspOfByte (laneB0 d.word) else 0) } := by
  cases hc : d.complete <;> cases hk : commandCheck d.word <;>
    simp [exec, execGetCommand, hd, hc, hk, State.finish]

/-- A quiet request always ends, and the only field of the instance it can change is `err`, from 0 to 1
(41_queries_and_framer.md R131). -/
theorem exec_quiet {i : Instr} (hi : isQuiet i = true) (s : State) :
    ∃ t, exec i s = .next t ∧ t.inputs = s.inputs ∧ t.ticks = s.ticks ∧
      (s.decoder = none → t.decoder = none) ∧
      ∀ d, s.decoder = some d → ∃ e, t.decoder = some { d with err := e } ∧ (d.err = true → e = true) := by
  have keep : ∀ r, exec i s = .next { s with rsp := r } → ∃ t, exec i s = .next t ∧ t.inputs = s.inputs ∧
      t.ticks = s.ticks ∧ (s.decoder = none → t.decoder = none) ∧
      ∀ d, s.decoder = some d → ∃ e, t.decoder = some { d with err := e } ∧ (d.err = true → e = true) :=
    fun r h => ⟨_, h, rfl, rfl, id, fun d hd => ⟨d.err, hd, id⟩⟩
  have extract : ∀ (e : ErrorClass) (b : Bool) (d : Decoder), e ≠ .framing →
      ∃ v, (if b then d else d.record e) = { d with err := v } ∧ (d.err = true → v = true) := by
    intro e b d he
    cases b
    · exact ⟨true, by cases e <;> first | rfl | exact absurd rfl he, fun _ => rfl⟩
    · exact ⟨d.err, rfl, id⟩
  cases i <;> simp only [isQuiet, Bool.false_eq_true] at hi
  case nop => exact keep none rfl
  case reserved => exact keep none rfl
  case isFinished => exact keep _ (exec_isFinished s)
  case isError => exact keep _ (exec_isError s)
  case getAddress =>
    cases hd : s.decoder with
    | none => exact hd ▸ keep _ (exec_getAddress_absent hd)
    | some d =>
      obtain ⟨v, hv, hle⟩ := extract .usage d.complete d (by decide)
      exact ⟨_, exec_getAddress_present hd, rfl, rfl, nofun, fun d' h => ⟨v, by cases h; rw [← hv], by cases h; exact hle⟩⟩
  case getCommand =>
    cases hd : s.decoder with
    | none => exact hd ▸ keep _ (exec_getCommand_absent hd)
    | some d =>
      have : ∃ v, (if d.complete then (if commandCheck d.word then d else d.record .checksum) else d.record .usage) =
          { d with err := v } ∧ (d.err = true → v = true) := by
        cases d.complete
        · exact extract .usage false d (by decide)
        · exact extract .checksum (commandCheck d.word) d (by decide)
      obtain ⟨v, hv, hle⟩ := this
      exact ⟨_, exec_getCommand_present hd, rfl, rfl, nofun, fun d' h => ⟨v, by cases h; rw [← hv], by cases h; exact hle⟩⟩

/-- The fold of events, peeled from the front (20_memory.md R56). -/
theorem execAll_cons_next {i : Instr} {es : List Instr} {s t : State} (h : exec i s = .next t) :
    execAll (i :: es) s = execAll es t := by simp [execAll, h]

/-- A sequence of one event (20_memory.md R56). -/
@[simp] theorem execAll_singleton (i : Instr) (s : State) : execAll [i] s = exec i s := by
  simp only [execAll]; cases exec i s <;> rfl

/-- A sequence whose first event is refused is refused (60_exceptions.md R160). -/
theorem execAll_cons_refused {i : Instr} {es : List Instr} {s : State} {r : Refusal} (h : exec i s = .refused r) :
    execAll (i :: es) s = .refused r := by simp [execAll, h]

/-- A sequence of events that ends has ended after each of them. -/
theorem execAll_cons_inv {i : Instr} {es : List Instr} {s u : State} (h : execAll (i :: es) s = .next u) :
    ∃ t, exec i s = .next t ∧ execAll es t = .next u := by
  simp only [execAll] at h
  cases hi : exec i s with
  | next t => exact ⟨t, rfl, by simpa [hi] using h⟩
  | fault r => simp [hi] at h
  | refused r => simp [hi] at h

/-- A sequence of events is run piece by piece (20_memory.md R56). -/
theorem execAll_append {es fs : List Instr} {s t : State} (h : execAll es s = .next t) :
    execAll (es ++ fs) s = execAll fs t := by
  induction es generalizing s with
  | nil => simp only [execAll, Host.Outcome.next.injEq] at h; simp [h]
  | cons i es ih =>
    obtain ⟨u, hu, hes⟩ := execAll_cons_inv h
    rw [List.cons_append, execAll_cons_next hu, ih hes]

/-- What holds of a state and is kept by every event is kept by every sequence of events. -/
theorem execAll_keeps (P : State → Prop) (keeps : ∀ i s t, P s → exec i s = .next t → P t) :
    ∀ (es : List Instr) (s t : State), P s → execAll es s = .next t → P t
  | [], s, t, hs, h => by
    simp only [execAll, Host.Outcome.next.injEq] at h; exact h ▸ hs
  | i :: es, s, t, hs, h => by
    obtain ⟨u, hu, hes⟩ := execAll_cons_inv h
    exact execAll_keeps P keeps es u t (keeps i s u hs hu) hes

end Sys2Proof.Machine
end

