-- ==== Sys2Proof/Laws/PerInstr.lean ====
section
/-! SUPPORT. Facts about every operation as syntax, one lemma per constructor. -/

namespace Sys2Proof.Laws.PortDiscipline

/-- An operation is carried by the port of its agent and by no other (30_encoding.md R70 to R72, 60_exceptions.md
R171): an EDGE leaves the request port at `0000`, a request leaves `edge_stb` at 0. -/
def Statement (i : Instr) : Prop :=
  ((encode i).edgeStb = true ↔ i.agent = .line) ∧
  (i.agent = .line → decodeH (encode i) = .nop) ∧
  (i.agent = .host → decodeE (encode i) = none)

theorem edge (now : Time) : Statement (.edge now) := ⟨by simp [encode], fun _ => rfl, nofun⟩
theorem nop : Statement .nop := by unfold Statement; decide
theorem enable (p : Pin) : Statement (.enable p) := ⟨by simp [encode], nofun, fun _ => rfl⟩
theorem disable : Statement .disable := by unfold Statement; decide
theorem reset : Statement .reset := by unfold Statement; decide
theorem isFinished : Statement .isFinished := by unfold Statement; decide
theorem isError : Statement .isError := by unfold Statement; decide
theorem getAddress : Statement .getAddress := by unfold Statement; decide
theorem getCommand : Statement .getCommand := by unfold Statement; decide
theorem reserved (op : Op) : Statement (.reserved op) := ⟨by simp [encode], nofun, fun _ => rfl⟩

end Sys2Proof.Laws.PortDiscipline
end

