-- ==== Sys2Proof/Laws/Script.lean ====
section
/-! SUPPORT. What running the cycles of a script can do. -/

namespace Sys2Proof.Machine

/-- The cycle of a request is that request. -/
theorem runCycle_encode_request {i : Instr} (h : isScriptRequest i = true) (s : State) :
    runCycle (encode i) s = exec i s := by
  cases i <;> first | exact execAll_singleton _ _ | simp [isScriptRequest] at h

/-- The cycle of an edge is that edge. -/
theorem runCycle_encode_edge (now : Time) (s : State) : runCycle (encode (.edge now)) s = exec (.edge now) s :=
  execAll_singleton _ _

/-- Cycles run in two parts. -/
theorem runChecked_append (as bs : CheckedCycles) (s : State) :
    runChecked (as ++ bs) s = (runChecked as s).bind (runChecked bs) := by
  induction as generalizing s with
  | nil => rfl
  | cons a as ih =>
    simp only [List.cons_append, runChecked]
    cases runCycle a.1 s with
    | next t => simp only [ih]; split <;> rfl
    | fault r => rfl
    | refused r => rfl

/-- Cycles of edges, from which nothing is demanded, are the edges. -/
theorem runChecked_edges (ts : List Time) (s t : State) :
    runChecked (ts.map fun now => (encode (.edge now), none)) s = some t ↔ execAll (ts.map .edge) s = .next t := by
  induction ts generalizing s with
  | nil => simp [runChecked, execAll]
  | cons a ts ih =>
    simp only [List.map_cons, runChecked, runCycle_encode_edge, execAll]
    cases exec (.edge a) s with
    | next u => simp [ih]
    | fault r => simp
    | refused r => simp

/-- A script of one line. -/
theorem scriptRun_singleton (l : ScriptLine) (prev : Option Nat) (s t : State) :
    scriptRun prev [l] s = some t ↔
      ∃ e, l.event.expand prev = some e ∧ runChecked e.cycles s = some t ∧ l.met e.cycles t = true := by
  simp only [scriptRun]
  cases l.event.expand prev with
  | none => simp
  | some e => cases h : runChecked e.cycles s <;> simp [h]; grind

end Sys2Proof.Machine
end

