-- ==== Sys2Proof/Laws/Step.lean ====
section
/-! SUPPORT. What one step and a run can do, and the induction over a run, packaged once. -/

namespace Sys2Proof.Machine

/-- A run of one step more is a step and then the run. -/
theorem run_succ_inv (M : Host.Core) {n : Nat} {s t : M.State} (h : M.run (n + 1) s = .next t) :
    ∃ u, M.step s = .next u ∧ M.run n u = .next t := by
  rw [Host.Core.run] at h
  split at h
  · rename_i u hu; exact ⟨u, hu, h⟩
  · cases h
  · cases h

/-- What a step keeps, a run keeps. -/
theorem run_keeps (M : Host.Core) (P : M.State → Prop) (keeps : ∀ s t, P s → M.step s = .next t → P t) :
    ∀ (n : Nat) (s t : M.State), P s → M.run n s = .next t → P t
  | 0, s, t, hs, h => by
    simp only [Host.Core.run, Host.Outcome.next.injEq] at h; exact h ▸ hs
  | n + 1, s, t, hs, h => by
    obtain ⟨u, hu, hr⟩ := run_succ_inv M h
    exact run_keeps M P keeps n u t (keeps s u hs hu) hr

/-- A step is a clock cycle's events or a power-on, on the state that has consumed the stimulus (30_encoding.md R83). -/
theorem step_cases {s t : State} (h : step s = .next t) :
    (∃ c, s.nextStimulus = .clk c ∧ execAll (decode c) s.advance = .next t) ∨
    (s.nextStimulus = .rst ∧ t = s.advance.powerOn) := by
  unfold step at h
  cases hx : s.nextStimulus with
  | clk c => rw [hx] at h; exact .inl ⟨c, rfl, h⟩
  | rst => rw [hx] at h; cases h; exact .inr ⟨rfl, rfl⟩

/-- A property of the instance alone that every event and power-on keep is kept by every step. -/
theorem step_keeps (P : Option Decoder → Prop) (absent : P none)
    (keeps : ∀ i s t, P s.decoder → exec i s = .next t → P t.decoder) {s t : State} (hs : P s.decoder)
    (h : step s = .next t) : P t.decoder := by
  rcases step_cases h with ⟨c, _, hc⟩ | ⟨_, rfl⟩
  · exact execAll_keeps (fun u => P u.decoder) keeps _ s.advance t hs hc
  · exact absent

end Sys2Proof.Machine
end

