-- ==== Sys2Proof/Tests/Slice0.lean ====
section
/-! SUPPORT. The model's own tests: the well-formedness smoke test, words of the encoding tables, one step of each
operation with the result the spec's vectors give, and, for every statement with hypotheses, a state and operands that
meet them. -/

namespace Sys2Proof.Tests

open Sys2Proof.Machine

/-- A state with this instance and nothing else. -/
def st (d : Option Decoder) : State := { decoder := d, rsp := none, inputs := [], ticks := 0 }

/-- A present instance of pin 3, written as the spec's vectors write it: `word step last err halt`. -/
def dec (word : Word) (step : StepReg) (last : Time) (err halt : Bool) : Decoder := { pin := 3, word, step, last, err, halt }

/-- The state an operation ends in. -/
def ends : Result → Option State
  | .next s => some s
  | .fault _ => none
  | .refused _ => none

/-- The instance an operation ends with (`none`: it is refused). -/
def leaves (r : Result) : Option (Option Decoder) := (ends r).map State.decoder

/-- The response an operation drives (`none`: it is refused, `some none`: no response). -/
def answers (r : Result) : Option (Option Rsp) := (ends r).map State.rsp

/-- Why an operation is refused. -/
def refusal : Result → Option Refusal
  | .next _ => none
  | .fault _ => none
  | .refused r => some r

/-! ## Well-formedness: the check refuses an ill-formed term -/

theorem test_reserved_below_eight_is_ill_formed : (Instr.reserved 0b0111).wellFormed = false := by decide
theorem test_reserved_eight_is_well_formed : (Instr.reserved 0b1000).wellFormed = true := by decide

/-! ## Words of the encoding tables (30_encoding.md R71, R73; the columns of 95_test_vectors.md) -/

theorem test_word_edge : decode ⟨true, 42, 0b0000, 0⟩ = [.edge 42] := by decide
theorem test_word_nop : decode ⟨false, 42, 0b0000, 7⟩ = [.nop] := by decide
theorem test_word_enable : decode ⟨false, 0, 0b0001, 4⟩ = [.enable 4] := by decide
theorem test_word_disable : decode ⟨false, 0, 0b0010, 0⟩ = [.disable] := by decide
theorem test_word_reset : decode ⟨false, 0, 0b0011, 0⟩ = [.reset] := by decide
theorem test_word_is_finished : decode ⟨false, 0, 0b0100, 0⟩ = [.isFinished] := by decide
theorem test_word_is_error : decode ⟨false, 0, 0b0101, 0⟩ = [.isError] := by decide
theorem test_word_get_address : decode ⟨false, 0, 0b0110, 0⟩ = [.getAddress] := by decide
theorem test_word_get_command : decode ⟨false, 0, 0b0111, 0⟩ = [.getCommand] := by decide
theorem test_word_reserved_first : decode ⟨false, 0, 0b1000, 0⟩ = [.reserved 0b1000] := by decide
theorem test_word_reserved_last : decode ⟨false, 0, 0b1111, 0⟩ = [.reserved 0b1111] := by decide
/-- `EDGE @t || GET_COMMAND` (95_test_vectors.md P5): the edge first. -/
theorem test_word_edge_and_command : decode ⟨true, 61500, 0b0111, 0⟩ = [.edge 61500, .getCommand] := by decide

/-! ## One step of each operation -/

/-- 95_test_vectors.md V2: a leader pulse of 14000 is accepted. -/
theorem test_edge_leader_upper_bound :
    leaves (exec (.edge 14007) (st (some (dec 0 (-1) 7 false false)))) = some (some (dec 0 0 14007 false false)) := by
  decide
/-- 95_test_vectors.md V1: the 34th edge, gap 2000. -/
theorem test_edge_last_bit :
    leaves (exec (.edge 66500) (st (some (dec 0x2AAAAAAA 31 64500 false false)))) =
      some (some (dec 0x55555555 32 66500 false false)) := by decide
/-- 42_lifecycle.md R140, the example. -/
theorem test_enable_writes_every_field :
    leaves (exec (.enable 4) (st none)) = some (some { pin := 4, word := 0, step := -2, last := 0, err := false, halt := false }) := by
  decide
/-- 95_test_vectors.md V9: the second ENABLE is refused. -/
theorem test_enable_twice_is_refused :
    refusal (exec (.enable 9) (st (some (dec 0 (-2) 0 false false)))) = some .enableOnPresent := by decide
/-- 42_lifecycle.md R142, the example: in the middle of a frame. -/
theorem test_disable_in_mid_frame : leaves (exec .disable (st (some (dec 0x3FC 17 43750 false false)))) = some none := by
  decide
/-- 95_test_vectors.md V10, second row: out of ERROR. -/
theorem test_reset_leaves_error :
    leaves (exec .reset (st (some (dec 0 (-2) 22250 true true)))) = some (some (dec 0 (-2) 0 false false)) := by decide
/-- 95_test_vectors.md V13. -/
theorem test_nop_changes_nothing :
    leaves (exec .nop (st (some (dec 5 7 9 true false)))) = some (some (dec 5 7 9 true false)) := by decide
/-- 95_test_vectors.md V13. -/
theorem test_reserved_changes_nothing :
    ends (exec (.reserved 0b1101) (st (some (dec 5 7 9 true false)))) = some (st (some (dec 5 7 9 true false))) := by decide
/-- 95_test_vectors.md V14; `err` plays no part (41_queries_and_framer.md R120). -/
theorem test_is_finished_ignores_the_flag :
    answers (exec .isFinished (st (some (dec 0x20DF10EF 32 0 true false)))) = some (some 0x0001) := by decide
/-- 95_test_vectors.md V7. -/
theorem test_is_error_when_absent : answers (exec .isError (st none)) = some (some 0x0001) := by decide
/-- 95_test_vectors.md V5, first row. -/
theorem test_get_address_compact :
    answers (exec .getAddress (st (some (dec 0x20DF10EF 32 0 false false)))) = some (some 0x00DF) := by decide
/-- 95_test_vectors.md V5, sixth row; the flag stays 0 (R130). -/
theorem test_get_address_extended :
    ends (exec .getAddress (st (some (dec 0x1234A55A 32 0 false false)))) =
      some { st (some (dec 0x1234A55A 32 0 false false)) with rsp := some 0x1234 } := by decide
/-- 95_test_vectors.md V5, seventh row: the check fails, the value is returned. -/
theorem test_get_command_bad_check :
    ends (exec .getCommand (st (some (dec 0x55555555 32 0 false false)))) =
      some { st (some (dec 0x55555555 32 0 true false)) with rsp := some 0x0055 } := by decide
/-- 95_test_vectors.md V6: one edge short of completion. -/
theorem test_get_command_early :
    ends (exec .getCommand (st (some (dec 0x7FFFFFFF 31 75500 false false)))) =
      some { st (some (dec 0x7FFFFFFF 31 75500 true false)) with rsp := some 0x0000 } := by decide
/-- 95_test_vectors.md V8 (b): the edge is applied first in a shared cycle. -/
theorem test_same_cycle_edge_first :
    answers (runCycle (encodeBoth 61500 .getCommand) (st (some (dec 0x007F807F 31 59500 false false)))) =
      some (some 0x00FF) := by decide
/-- 95_test_vectors.md V4: the bit that leaves the word is dropped. -/
theorem test_acc_drops_the_top_bit : acc 0x80000000 false = 0x00000000 := by decide
/-- 95_test_vectors.md P2: the first bit edges of the frame's script, and how many edges it has. -/
theorem test_frame_times :
    (frameTimes 100000 13500 0x20DF10EF 1125 2250).take 6 = [100000, 113500, 114625, 115750, 118000, 119125] ∧
    (frameTimes 100000 13500 0x20DF10EF 1125 2250).length = Config.edgesPerFrame ∧
    (frameTimes 100000 13500 0x20DF10EF 1125 2250).getLast? = some 167500 := by decide
/-- 30_encoding.md R80 with 95_test_vectors.md V8 (b): the response written on the line is the one driven. -/
theorem test_script_same_cycle_response :
    scriptHolds [⟨.both 61500 .getCommand, some 0xFF⟩, ⟨.request .isError, some 0⟩]
      (st (some (dec 0x007F807F 31 59500 false false))) = true := by decide
/-- 40_edge_acquisition.md R90: EDGE has no response, so a response written on its line is not driven. -/
theorem test_script_edge_has_no_response :
    scriptHolds [⟨.edge 61500, some 0⟩] (st (some (dec 0x007F807F 31 59500 false false))) = false := by decide
/-- 30_encoding.md R81: POLL repeats IS_FINISHED until it returns 1, here at the second request. -/
theorem test_script_poll :
    scriptHolds [⟨.poll [[61500]], none⟩] (st (some (dec 0x007F807F 31 59500 false false))) = true ∧
    scriptHolds [⟨.poll []  , none⟩] (st (some (dec 0x007F807F 31 59500 false false))) = false := by decide
/-- 30_encoding.md R81: a GAP counts from the AT line before it. -/
theorem test_script_gap_after_at :
    scriptInputs [⟨.at 5000, none⟩, ⟨.gap 13500, none⟩] = some [.clk (encode (.edge 18500))] := by decide
/-- 95_test_vectors.md V7: the outputs after power-on. -/
theorem test_outputs_at_power_on :
    State.reset.finished = false ∧ State.reset.errorOut = true ∧ State.reset.armed = false ∧ State.reset.rspValid = false := by
  decide

/-! ## Witnesses: the hypotheses of each statement can be met together -/

/-- LEADING_GAP of a fresh instance. -/
def fresh : Decoder := dec 0 (-2) 0 false false
/-- LEADING_PULSE, the reference edge at 1000. -/
def pulse : Decoder := dec 0 (-1) 1000 false false
/-- DONE. -/
def done : Decoder := dec 0x20DF10EF 32 167500 false false
/-- ERROR. -/
def latched : Decoder := dec 0 (-2) 12250 true true
/-- `n` edges, `g` microseconds apart, the first at `g`. -/
def train (n g : Nat) : List Instr := (List.range n).map fun k => .edge (BitVec.ofNat 64 (g * (k + 1)))
/-- Their times. -/
def trainTimes (n g : Nat) : List Time := (List.range n).map fun k => BitVec.ofNat 64 (g * (k + 1))

theorem witness_ResetValuesOfEveryField : (st none).decoder = none ∧ (st (some done)).decoder = some done := by decide
theorem witness_EnableCreatesFreshInstance : (st none).decoder = none := by decide
theorem witness_EnableOnPresentIsRefused : (st (some latched)).decoder = some latched := by decide
theorem witness_DisableEndsTheInstance : (st none).decoder = none := by decide
theorem witness_ResetReinitialisesInPlace : (st (some latched)).decoder = some latched := by decide
theorem witness_ResetBehavesAsFreshEnable : (st (some done)).decoder = some done := by decide
theorem witness_NopAndReservedChangeNothing : 8 ≤ (0b1000#4).toNat ∧ 8 ≤ (0b1111#4).toNat := by decide
theorem witness_AbsentInstanceDefaults : (st none).decoder = none := by decide
theorem witness_BackwardClockIsRefused :
    (st (some pulse)).decoder = some pulse ∧ (999#64).toNat < pulse.last.toNat ∧ pulse.last.toNat ≤ (1000#64).toNat ∧
    (st none).decoder = none := by decide
theorem witness_FirstEdgeSetsTheReference :
    (st (some fresh)).decoder = some fresh ∧ fresh.halt = false ∧ fresh.step = -2 ∧ fresh.last ≤ (0 : Time) := by decide
theorem witness_LeaderInWindowIsAccepted :
    (st (some pulse)).decoder = some pulse ∧ pulse.halt = false ∧ pulse.step = -1 ∧ pulse.last ≤ (14000 : Time) ∧
    13000 ≤ (14000#64).toNat - pulse.last.toNat ∧ (15000#64).toNat - pulse.last.toNat ≤ 14000 ∧
    (14000#64).toNat - pulse.last.toNat ≤ 14000 := by decide
theorem witness_LeaderOutsideWindowLatchesFramingError :
    (st (some pulse)).decoder = some pulse ∧ pulse.halt = false ∧ pulse.step = -1 ∧ pulse.last ≤ (13999 : Time) ∧
    (13999#64).toNat - pulse.last.toNat < 13000 ∧ pulse.last ≤ (15001 : Time) ∧
    14000 < (15001#64).toNat - pulse.last.toNat := by decide
theorem witness_BitEdgeShiftsOneBitIn_first :
    (dec 0 0 18500 false false).halt = false ∧ 0 ≤ (dec 0 0 18500 false false).step.toInt ∧
    (dec 0 0 18500 false false).step.toInt ≤ 31 ∧ (dec 0 0 18500 false false).last ≤ (20500 : Time) := by decide
theorem witness_BitEdgeShiftsOneBitIn_last :
    (dec 1 31 18500 true false).halt = false ∧ 0 ≤ (dec 1 31 18500 true false).step.toInt ∧
    (dec 1 31 18500 true false).step.toInt ≤ 31 ∧ (dec 1 31 18500 true false).last ≤ (18500 : Time) := by decide
theorem witness_TerminalPhasesOnlyStampTheEdge :
    latched.halt = true ∧ latched.last ≤ (20000 : Time) ∧ 32 ≤ done.step.toInt ∧ done.last ≤ (167500 : Time) ∧
    (dec 0 (-3) 0 false false).step.toInt < -2 ∧ 32 ≤ (dec 0 33 0 false false).step.toInt := by decide
theorem witness_FrameClosedForm_accepted :
    fresh.halt = false ∧ fresh.step = -2 ∧ fresh.word = 0 ∧
    (∀ i ∈ Instr.getAddress :: train 34 13500, isAcquisition i = true) ∧
    edgeTimes (Instr.getAddress :: train 34 13500) = trainTimes 34 13500 ∧ (trainTimes 34 13500).length = 34 ∧
    (fresh.last :: trainTimes 34 13500).Pairwise (· ≤ ·) ∧
    13000 ≤ (trainTimes 34 13500)[1]!.toNat - (trainTimes 34 13500)[0]!.toNat ∧
    (trainTimes 34 13500)[1]!.toNat - (trainTimes 34 13500)[0]!.toNat ≤ 14000 := by decide
theorem witness_FrameClosedForm_rejected :
    fresh.halt = false ∧ fresh.step = -2 ∧ fresh.word = 0 ∧ (∀ i ∈ train 34 12999, isAcquisition i = true) ∧
    edgeTimes (train 34 12999) = trainTimes 34 12999 ∧ (trainTimes 34 12999).length = 34 ∧
    (fresh.last :: trainTimes 34 12999).Pairwise (· ≤ ·) ∧
    (trainTimes 34 12999)[1]!.toNat - (trainTimes 34 12999)[0]!.toNat < 13000 := by decide
theorem witness_ScriptFrameDecodesItsWord :
    fresh.halt = false ∧ fresh.step = -2 ∧ fresh.word = 0 ∧ fresh.last.toNat ≤ 0 ∧ 13000 ≤ 13000 ∧ 13000 ≤ 14000 ∧
    1600 ≤ 1600 ∧ 1600 < 1601 ∧ 0 + 13000 + 32 * 1601 < 2 ^ 64 := by decide
theorem witness_PhaseTransitionTable_present : ∃ t, exec (.edge 14000) (st (some pulse)) = .next t := ⟨_, rfl⟩
theorem witness_PhaseTransitionTable_absent : ∃ t, exec (.enable 1) (st none) = .next t := ⟨_, rfl⟩
theorem witness_PhaseTransitionTable_request :
    (∃ t, exec .reset (st (some latched)) = .next t) ∧ ∀ now, Instr.reset ≠ .edge now := ⟨⟨_, rfl⟩, nofun⟩
theorem witness_IsFinishedAnswersStepThirtyTwo :
    (st (some done)).decoder = some done ∧ (st none).decoder = none := by decide
theorem witness_IsErrorAnswersTheFlag : (st (some latched)).decoder = some latched ∧ (st none).decoder = none := by decide
theorem witness_GetAddressOnFinishedInstance : (st (some done)).decoder = some done ∧ done.step = 32 := by decide
theorem witness_GetCommandOnFinishedInstance : (st (some done)).decoder = some done ∧ done.step = 32 := by decide
theorem witness_EarlyExtractionIsUsageError : (st (some latched)).decoder = some latched ∧ latched.step ≠ 32 := by decide
theorem witness_QueriesAreIdempotent :
    Instr.getCommand = .isFinished ∨ Instr.getCommand = .isError ∨ Instr.getCommand = .getAddress ∨
      Instr.getCommand = .getCommand := by decide
theorem witness_ZeroAnswersOfTheExtractions :
    (∃ t, exec .getAddress (st (some (dec 0xFF00FF00 32 0 false false))) = .next t) ∧
    ∃ t, exec .getCommand (st (some (dec 0xFF00FF00 32 0 false false))) = .next t := ⟨⟨_, rfl⟩, ⟨_, rfl⟩⟩
theorem witness_QueriesDoNotDisturbAcquisition :
    (∀ i ∈ [Instr.edge 5, .getAddress, .edge 13505], isAcquisition i = true) ∧
    ∃ t, execAll [.edge 5, .getAddress, .edge 13505] (st (some fresh)) = .next t := ⟨by decide, _, rfl⟩
theorem witness_ReadOutReportsTheCheck : (st (some done)).decoder = some done ∧ done.step = 32 := by decide
theorem witness_ErrorFlagSetAndCleared_present :
    ∃ t d', exec .getAddress (st (some fresh)) = .next t ∧ t.decoder = some d' := ⟨_, _, rfl, rfl⟩
theorem witness_ErrorFlagSetAndCleared_absent :
    ∃ t d', exec (.enable 4) (st none) = .next t ∧ t.decoder = some d' := ⟨_, _, rfl, rfl⟩
theorem witness_HaltMarksTheFramingError :
    ∃ t d', exec (.edge 1000) (st (some pulse)) = .next t ∧ t.decoder = some d' := ⟨_, _, rfl, rfl⟩
theorem witness_EdgeFrame :
    (∃ t, exec (.edge 167500) (st (some done)) = .next t) ∧ ∃ t, exec (.edge 0) (st none) = .next t :=
  ⟨⟨_, rfl⟩, ⟨_, rfl⟩⟩
theorem witness_QuietRequestFrame :
    isQuiet .getCommand = true ∧ ∃ t, exec .getCommand (st (some fresh)) = .next t := ⟨rfl, _, rfl⟩
theorem witness_LifecycleFrame :
    (∃ t, exec .reset (st (some done)) = .next t) ∧ (∃ t, exec .disable (st (some done)) = .next t) ∧
    ∃ t, exec (.enable 1) (st none) = .next t := ⟨⟨_, rfl⟩, ⟨_, rfl⟩, ⟨_, rfl⟩⟩
theorem witness_StatusOutputsFollowTheState : (st (some done)).decoder = some done ∧ (st none).decoder = none := by decide
theorem witness_ResponseValidExactlyForQueries :
    (∃ t, exec .isError (st none) = .next t) ∧ ∃ t, exec .nop (st none) = .next t := ⟨⟨_, rfl⟩, ⟨_, rfl⟩⟩
theorem witness_DecodeAndEncodeAgree :
    (Instr.reserved 0b1000).wellFormed = true ∧ decode ⟨false, 3, 0b0001, 255⟩ = [.enable 255] := by decide
theorem witness_StepRunsTheDecodedEvents :
    (State.reset.feed (.clk ⟨false, 0, 0b0001, 4⟩)).inputs = [.clk ⟨false, 0, 0b0001, 4⟩] ∧
    decode ⟨false, 0, 0b0001, 4⟩ = [.enable 4] ∧
    (State.reset.feed (.clk ⟨true, 9, 0b0100, 4⟩)).inputs = [.clk ⟨true, 9, 0b0100, 4⟩] ∧
    decode ⟨true, 9, 0b0100, 4⟩ = [.edge 9, .isFinished] ∧
    (State.reset.feed .rst).inputs = [.rst] ∧ State.reset.inputs = [] := by decide
theorem witness_CycleFollowsTheDecodeRule :
    (Cycle.idle.edgeStb = false ∧ Cycle.idle.reqOp.toNat = 0 ∧ ∀ u, exec .nop u = exec .nop u) ∧
    (encodeBoth 61500 .getCommand).edgeStb = true ∧ (encodeBoth 61500 .getCommand).reqOp.toNat = 7 ∧
    ∃ u, exec (.edge 61500) (st (some (dec 0x007F807F 31 59500 false false))) = .next u :=
  ⟨⟨rfl, rfl, fun _ => rfl⟩, rfl, rfl, _, rfl⟩
theorem witness_PlacedTableWordRunsNext :
    decodeTableWord 8 6 = some .getAddress ∧ decodeTableWord 1 1 = some (.edge 0) := by decide
theorem witness_CompletingEdgeThenReadInOneCycle :
    (dec 0x007F807F 31 59500 false false).halt = false ∧ (dec 0x007F807F 31 59500 false false).step = 31 ∧
    (dec 0x007F807F 31 59500 false false).last ≤ (61500 : Time) ∧ true = decide (1600 < (61500#64).toNat - (59500#64).toNat) := by
  decide
theorem witness_EventsCompleteExactlyInContract :
    ¬ InContract (.enable 4) (st (some fresh)) ∧ ¬ InContract (.edge 999) (st (some pulse)) :=
  ⟨nofun, fun h => absurd (h pulse rfl) (by decide)⟩
theorem witness_StepKeepsTheInvariant : (st none).Inv ∧ ∃ t, step (st none) = .next t := ⟨nofun, _, rfl⟩
theorem witness_ReachedStatesSatisfyTheInvariant : ∃ s d, Reached s ∧ s.decoder = some d :=
  ⟨_, _, ⟨[.clk ⟨false, 0, 0b0001, 4⟩], 1, rfl⟩, rfl⟩
theorem witness_CompletionIsStable :
    (∀ i ∈ [Instr.edge 170000, .getCommand], isAcquisition i = true) ∧ done.step = 32 ∧ done.halt = false ∧
    ∃ t, execAll [.edge 170000, .getCommand] (st (some done)) = .next t := ⟨by decide, rfl, rfl, _, rfl⟩
theorem witness_FramingErrorIsLatched :
    (∀ i ∈ [Instr.edge 20000, .isFinished], isAcquisition i = true) ∧ latched.Inv ∧ latched.halt = true ∧
    ∃ t, execAll [.edge 20000, .isFinished] (st (some latched)) = .next t :=
  ⟨by decide, ⟨by decide, by decide, by decide, by decide, by decide⟩, rfl, _, rfl⟩
theorem witness_MidFrameResetMisframes :
    (44875 : Time) ≤ (46000 : Time) ∧ (46000#64).toNat - (44875#64).toNat < 13000 := by decide

theorem witness_PseudoOperationsExpandAsTheTable : 1600 ≤ 1600 ∧ 1600 < 1601 := by decide
theorem witness_PollRepeatsUntilFinished :
    (scriptRun none [⟨.poll [[], [61500]], none⟩] (st (some (dec 0x007F807F 31 59500 false false)))).isSome = true := by
  decide
theorem witness_WrittenResponseIsTheOneDriven :
    isScriptRequest .getCommand = true ∧ Instr.getCommand ≠ .nop ∧
    (scriptRun none [⟨.request .getCommand, some 0⟩] (st (some pulse))).isSome = true ∧
    (scriptRun none [⟨.both 61500 .getCommand, some 0xFF⟩]
      (st (some (dec 0x007F807F 31 59500 false false)))).isSome = true ∧
    scriptRun (some 61000) [⟨.gap 500, some 1⟩] (st (some (dec 0x007F807F 31 59500 false false))) = none := by decide

end Sys2Proof.Tests
end

section
/-! PROOFS. The state family (10_state.md): what each operation does to the instance, the write matrix R33 with the
reset values R34, the flags R25 and R26, and the invariant R29. -/

namespace Sys2Proof.Machine

/-! ## Operands -/

/-- LEADING_PULSE on the register itself (10_state.md R28). -/
theorem Decoder.step_eq_leadingPulse_iff (d : Decoder) : d.step = -1 ↔ d.step.toInt = -1 := by
  rw [← stepReg_eq_iff d.step (by decide) (by decide)]
  rfl

/-- LEADING_GAP on the register itself (10_state.md R28). -/
theorem Decoder.step_eq_leadingGap_iff (d : Decoder) : d.step = -2 ↔ d.step.toInt = -2 := by
  rw [← stepReg_eq_iff d.step (by decide) (by decide)]
  rfl

/-- The leader window, its complement (40_edge_acquisition.md R95, R101). -/
theorem leaderOk_eq_false_iff (g : Nat) : leaderOk g = false ↔ g < 13000 ∨ 14000 < g := by
  rw [← Bool.not_eq_true, leaderOk_eq_true_iff]
  omega

/-- Shifting a bit in doubles and adds, modulo `2^32` (40_edge_acquisition.md R103). -/
theorem acc_toNat (w : Word) (b : Bool) : (acc w b).toNat = (2 * w.toNat + b.toNat) % 2 ^ 32 := by
  have h : acc w b = (w.concat b).setWidth 32 :=
    BitVec.eq_of_getLsbD_eq fun i hi => by
      rw [acc_getLsbD w b i hi, BitVec.getLsbD_setWidth, BitVec.getLsbD_concat]; simp [hi]
  rw [h, BitVec.toNat_setWidth, BitVec.toNat_concat, Nat.mul_comm]

/-- A boolean response as a number (30_encoding.md R76). -/
theorem rspOfBool_eq_ite (b : Bool) : rspOfBool b = if b then 1 else 0 := by cases b <;> rfl

/-- The phase of a state with an instance (10_state.md R28). -/
theorem State.phase_of_present {s : State} {d : Decoder} (hd : s.decoder = some d) : s.phase = d.phase := by
  simp [State.phase, hd]

/-- The `error` output of a state with an instance (30_encoding.md R75). -/
theorem State.errorOut_of_present {s : State} {d : Decoder} (hd : s.decoder = some d) : s.errorOut = d.err := by
  simp [State.errorOut, hd]

/-! ## The lifecycle operations -/

/-- ENABLE on an absent instance (42_lifecycle.md R140). -/
theorem exec_enable_absent {s : State} (hd : s.decoder = none) (p : Pin) :
    exec (.enable p) s = .next { s with decoder := some (Decoder.fresh p), rsp := none } := by
  simp [exec, execEnable, hd, State.finish]

/-- ENABLE (42_lifecycle.md R140, R141): what it can do when it ends. -/
theorem exec_enable_cases {p : Pin} {s t : State} (h : exec (.enable p) s = .next t) :
    s.decoder = none ∧ t = { s with decoder := some (Decoder.fresh p), rsp := none } := by
  cases hd : s.decoder with
  | none => rw [exec_enable_absent hd] at h; cases h; exact ⟨rfl, rfl⟩
  | some d => simp [exec, execEnable, hd] at h

/-- DISABLE (42_lifecycle.md R142, R143). -/
theorem exec_disable (s : State) : exec .disable s = .next { s with decoder := none, rsp := none } := rfl

/-- RESET (42_lifecycle.md R145, R146). -/
theorem exec_reset (s : State) :
    exec .reset s = .next { s with decoder := s.decoder.map Decoder.reinit, rsp := none } := rfl

/-! ## The quiet requests -/

/-- Whether a request of the host finds an error on a present instance: an extraction before completion, or a command
whose check byte does not match (60_exceptions.md R162, R163). -/
def Decoder.requestError (d : Decoder) : Instr → Bool
  | .getAddress => !d.complete
  | .getCommand => !(d.complete && commandCheck d.word)
  | _ => false

/-- The usage error and the checksum error, on the fields (60_exceptions.md R162, R163). -/
theorem Decoder.requestError_iff (d : Decoder) (i : Instr) :
    d.requestError i = true ↔ ((i = .getAddress ∨ i = .getCommand) ∧ d.step ≠ 32) ∨
      (i = .getCommand ∧ d.step = 32 ∧ d.word.extractLsb 7 0 ≠ ~~~ d.word.extractLsb 15 8) := by
  simp only [ne_eq, ← d.complete_iff, ← commandCheck_iff]
  cases i <;> simp [Decoder.requestError]
  case getCommand => cases d.complete <;> simp

/-- No quiet request is RESET (41_queries_and_framer.md R131). -/
theorem isQuiet_ne_reset {i : Instr} (hi : isQuiet i = true) : i ≠ .reset := by rintro rfl; cases hi

/-- No quiet request is an EDGE (41_queries_and_framer.md R131). -/
theorem isQuiet_ne_edge {i : Instr} (hi : isQuiet i = true) (now : Time) : i ≠ .edge now := by rintro rfl; cases hi

/-- A quiet request on a present instance: `err` is raised exactly if the request finds an error, and no other field
changes (10_state.md R33, 41_queries_and_framer.md R131). -/
theorem exec_quiet_present {i : Instr} (hi : isQuiet i = true) {s : State} {d : Decoder} (hd : s.decoder = some d) :
    ∃ r, exec i s =
      .next { s with decoder := some { d with err := d.err || d.requestError i }, rsp := r } := by
  have keep {i : Instr} {r : Option Rsp} (hno : d.requestError i = false) (h : exec i s = .next { s with rsp := r }) :
      ∃ r, exec i s = .next { s with decoder := some { d with err := d.err || d.requestError i }, rsp := r } :=
    ⟨r, by rw [h, hno, Bool.or_false, ← hd]⟩
  cases i <;> simp only [isQuiet, Bool.false_eq_true] at hi
  case nop => exact keep rfl rfl
  case reserved op => exact keep rfl rfl
  case isFinished => exact keep rfl (exec_isFinished s)
  case isError => exact keep rfl (exec_isError s)
  case getAddress =>
    have h : (if d.complete then d else d.record .usage) =
        { d with err := d.err || d.requestError .getAddress } := by
      cases hc : d.complete <;> simp [Decoder.requestError, Decoder.record, hc]
    exact ⟨_, h ▸ exec_getAddress_present hd⟩
  case getCommand =>
    have h : (if d.complete then (if commandCheck d.word then d else d.record .checksum) else d.record .usage) =
        { d with err := d.err || d.requestError .getCommand } := by
      cases hc : d.complete <;> cases hk : commandCheck d.word <;>
        simp [Decoder.requestError, Decoder.record, hc, hk]
    exact ⟨_, h ▸ exec_getCommand_present hd⟩

/-! ## What any operation does to the instance -/

/-- Only ENABLE makes an instance, and it makes a fresh one (10_state.md R27, R33). -/
theorem exec_absent_cases {i : Instr} {s t : State} {d' : Decoder} (hs : s.decoder = none) (h : exec i s = .next t)
    (ht : t.decoder = some d') : ∃ p, i = .enable p ∧ d' = Decoder.fresh p := by
  have quiet (hi : isQuiet i = true) : False := by
    obtain ⟨u, hu, -, -, habs, -⟩ := exec_quiet hi s
    cases hu.symm.trans h
    simp [habs hs] at ht
  cases i
  case enable p =>
    obtain ⟨-, rfl⟩ := exec_enable_cases h
    exact ⟨p, rfl, (Option.some.inj ht).symm⟩
  case edge now => rw [exec_edge_absent hs] at h; cases h; simp [hs] at ht
  case disable => rw [exec_disable] at h; cases h; simp at ht
  case reset => rw [exec_reset] at h; cases h; simp [hs] at ht
  all_goals exact (quiet rfl).elim

/-- The ways a present instance can come out of an operation that does not end it (10_state.md R33). -/
theorem exec_present_cases {i : Instr} {s t : State} {d d' : Decoder} (hs : s.decoder = some d)
    (h : exec i s = .next t) (ht : t.decoder = some d') :
    (∃ now, i = .edge now ∧ d' = d.onEdge now) ∨
    (i = .reset ∧ d' = d.reinit) ∨
    (isQuiet i = true ∧ d' = { d with err := d.err || d.requestError i }) := by
  have quiet (hi : isQuiet i = true) : d' = { d with err := d.err || d.requestError i } := by
    obtain ⟨r, hr⟩ := exec_quiet_present hi hs
    cases hr.symm.trans h
    exact (Option.some.inj ht).symm
  cases i
  case edge now =>
    obtain ⟨habs, -⟩ | ⟨_, hd, -, rfl⟩ := exec_edge_cases h
    · simp [hs] at habs
    · cases hs.symm.trans hd
      exact .inl ⟨now, rfl, (Option.some.inj ht).symm⟩
  case enable p => exact absurd (hs.symm.trans (exec_enable_cases h).1) nofun
  case disable => rw [exec_disable] at h; cases h; simp at ht
  case reset =>
    rw [exec_reset, hs] at h
    cases h
    exact .inr (.inl ⟨rfl, (Option.some.inj ht).symm⟩)
  all_goals exact .inr (.inr ⟨rfl, quiet rfl⟩)

/-! ## One edge on a present instance -/

/-- The row of EDGE in the write matrix (10_state.md R33, R21). -/
theorem Decoder.onEdge_frame (d : Decoder) (now : Time) :
    (d.onEdge now).last = now ∧ (d.onEdge now).pin = d.pin ∧
    ((∀ k, d.phase ≠ .bit k) → (d.onEdge now).word = d.word) ∧
    (d.phase ≠ .leadingPulse → (d.onEdge now).err = d.err ∧ (d.onEdge now).halt = d.halt) ∧
    (d.phase = .done ∨ d.phase = .error ∨ d.phase = .outOfRange → (d.onEdge now).step = d.step) := by
  rcases d.onEdge_cases now with ⟨-, hp, he⟩ | ⟨-, -, hp, he⟩ | ⟨-, -, hp, -, he⟩ | ⟨-, -, hp, -, he⟩ |
    ⟨-, -, -, hp, he⟩ | ⟨-, -, hp, he⟩ <;> simp [hp, he]

/-- Whether an edge on a present instance closes a leader pulse outside the window (60_exceptions.md R161). -/
def Decoder.framingError (d : Decoder) (now : Time) : Bool :=
  !d.halt && decide (d.step.toInt = Config.stepLeadingPulse) && !leaderOk (gap now d.last)

/-- The framing error, on the fields (40_edge_acquisition.md R95). -/
theorem Decoder.framingError_iff (d : Decoder) (now : Time) :
    d.framingError now = true ↔ d.halt = false ∧ d.step = -1 ∧
      (now.toNat - d.last.toNat < 13000 ∨ 14000 < now.toNat - d.last.toNat) := by
  rw [d.step_eq_leadingPulse_iff]
  simp [Decoder.framingError, leaderOk_eq_false_iff, gap, and_assoc]

/-- An edge raises `err` and `halt` exactly by a framing error (10_state.md R25, R26). -/
theorem Decoder.onEdge_flags (d : Decoder) (now : Time) :
    (d.onEdge now).err = (d.err || d.framingError now) ∧ (d.onEdge now).halt = (d.halt || d.framingError now) := by
  rcases d.onEdge_cases now with ⟨hh, -, he⟩ | ⟨hh, hs, -, he⟩ | ⟨hh, hs, -, hl, he⟩ | ⟨hh, hs, -, hl, he⟩ |
    ⟨hh, hs, -, -, he⟩ | ⟨hh, hs, -, he⟩
  · simp [Decoder.framingError, he, hh]
  · simp [Decoder.framingError, he, hs]
  · simp [Decoder.framingError, he, hl]
  · simp [Decoder.framingError, he, hh, hs, hl]
  all_goals
    have hs : d.step.toInt ≠ -1 := by omega
    simp [Decoder.framingError, he, hs]

/-! ## The invariant of an instance -/

/-- ENABLE makes an instance that satisfies I1 to I5 (10_state.md R29, R34). -/
theorem Decoder.fresh_inv (p : Pin) : (Decoder.fresh p).Inv where
  stepRange := by simp only [Decoder.fresh]; decide
  haltLatched := nofun
  leaderEmpty _ := rfl
  wordBound h := absurd h (by simp only [Decoder.fresh]; decide)
  acquiringRuns _ := rfl

/-- RESET makes an instance that satisfies I1 to I5, whatever it was before (10_state.md R29, R34). -/
theorem Decoder.reinit_inv (d : Decoder) : d.reinit.Inv := d.reinit_eq_fresh ▸ Decoder.fresh_inv d.pin

/-- I1 to I5 say nothing of `last` (10_state.md R29). -/
theorem Decoder.Inv.stamp {d : Decoder} (h : d.Inv) (now : Time) : (d.stamp now).Inv :=
  ⟨h.stepRange, h.haltLatched, h.leaderEmpty, h.wordBound, h.acquiringRuns⟩

/-- Raising `err` keeps I1 to I5 (10_state.md R29). -/
theorem Decoder.Inv.raiseErr {d : Decoder} (h : d.Inv) {e : Bool} (he : d.err = true → e = true) :
    ({ d with err := e } : Decoder).Inv where
  stepRange := h.stepRange
  haltLatched hh := by
    obtain ⟨hs, herr, hw⟩ := h.haltLatched hh
    exact ⟨hs, he herr, hw⟩
  leaderEmpty := h.leaderEmpty
  wordBound := h.wordBound
  acquiringRuns := h.acquiringRuns

/-- Moving the counter of an instance in which no error is latched makes I1 to I5 hold, if the new value is in the
range of I1 and the word is what I3 and I4 ask for at that value (10_state.md R29). -/
theorem Decoder.inv_goto {d : Decoder} {k : Int} (lo : -2 ≤ k) (hi : k ≤ 32) (hh : d.halt = false)
    (hneg : k < 0 → d.word = 0) (hpos : 0 ≤ k → d.word.toNat < 2 ^ k.toNat) : (d.goto k).Inv := by
  have hk : (d.goto k).step.toInt = k := stepOfInt_toInt (by omega) (by omega)
  constructor
  case stepRange => rw [hk]; exact ⟨lo, hi⟩
  case haltLatched => simp [hh]
  case leaderEmpty => rw [hk]; exact hneg
  case wordBound => rw [hk]; exact hpos
  case acquiringRuns => exact fun _ => hh

/-- A framing error on an instance without a bit leaves it latched (10_state.md R29, I2; 40_edge_acquisition.md R95). -/
theorem Decoder.inv_record_framing {d : Decoder} (hw : d.word = 0) : (d.record .framing).Inv := by
  have hs : (d.record .framing).step.toInt = -2 := stepOfInt_toInt (by decide) (by decide)
  constructor
  case stepRange => rw [hs]; decide
  case haltLatched => exact fun _ => ⟨hs, rfl, hw⟩
  case leaderEmpty => exact fun _ => hw
  case wordBound => rw [hs]; exact nofun
  case acquiringRuns => rw [hs]; exact nofun

/-- The accumulator of `n` bits grows by one bit (10_state.md R29, I4; 40_edge_acquisition.md R103). -/
theorem acc_lt_two_pow_succ {w : Word} {n : Nat} (hw : w.toNat < 2 ^ n) (b : Bool) : (acc w b).toNat < 2 ^ (n + 1) :=
  calc (acc w b).toNat
      = (2 * w.toNat + b.toNat) % 2 ^ 32 := acc_toNat w b
    _ ≤ 2 * w.toNat + b.toNat := Nat.mod_le _ _
    _ < 2 ^ (n + 1) := by have := b.toNat_le; omega

/-- Every edge keeps I1 to I5 (10_state.md R29). -/
theorem Decoder.Inv.onEdge {d : Decoder} (h : d.Inv) (now : Time) : (d.onEdge now).Inv := by
  rcases d.onEdge_cases now with ⟨-, -, he⟩ | ⟨hh, hs, -, he⟩ | ⟨hh, hs, -, -, he⟩ | ⟨-, hs, -, -, he⟩ |
    ⟨hh, lo, hi, -, he⟩ | ⟨-, -, -, he⟩ <;> rw [he]
  · exact h.stamp now
  · exact Decoder.inv_goto (by decide) (by decide) hh (fun _ => h.leaderEmpty (by omega)) nofun
  · have hw : d.word = 0 := h.leaderEmpty (by omega)
    exact Decoder.inv_goto (by decide) (by decide) hh nofun (fun _ => by simp [hw])
  · exact Decoder.inv_record_framing (h.leaderEmpty (by omega))
  · refine Decoder.inv_goto (by omega) (by omega) hh (by omega) fun _ => ?_
    rw [Int.toNat_add lo (by decide)]
    exact acc_lt_two_pow_succ (h.wordBound lo) _
  · exact h.stamp now

/-- Every operation that completes keeps I1 to I5 (10_state.md R29). -/
theorem exec_keeps_inv {i : Instr} {s t : State} (hs : s.Inv) (h : exec i s = .next t) : t.Inv := by
  intro d' ht
  cases hd : s.decoder with
  | none =>
    obtain ⟨p, -, rfl⟩ := exec_absent_cases hd h ht
    exact Decoder.fresh_inv p
  | some d =>
    have hinv : d.Inv := hs d hd
    obtain ⟨now, -, rfl⟩ | ⟨-, rfl⟩ | ⟨-, rfl⟩ := exec_present_cases hd h ht
    · exact hinv.onEdge now
    · exact d.reinit_inv
    · exact hinv.raiseErr fun he => by simp [he]

end Sys2Proof.Machine

open Sys2Proof Sys2Proof.Machine

/-! ## The obligations of the state family -/

/-- Settles O44: every operation keeps I1 to I5, so every step does. -/
theorem stepKeepsTheInvariant : Obligations.StepKeepsTheInvariant := fun s _ hs h =>
  step_keeps (fun o => ∀ d, o = some d → d.Inv) nofun (fun _ _ _ hu => exec_keeps_inv hu) (s := s) hs h

/-- Settles O43: at power-on there is no instance. -/
theorem invariantAtPowerOn : Obligations.InvariantAtPowerOn := fun _ h => nomatch h

/-- Settles O45, by induction over the run: O43 is its start and O44 its step. -/
theorem reachedStatesSatisfyTheInvariant : Obligations.ReachedStatesSatisfyTheInvariant := by
  rintro s d ⟨inputs, n, hrun⟩ hd
  have hstart : State.Inv { State.reset with inputs := inputs } := invariantAtPowerOn
  have hinv : d.Inv := run_keeps Sys2Proof.core State.Inv stepKeepsTheInvariant n _ s hstart hrun d hd
  rw [d.step_eq_leadingGap_iff]
  exact ⟨hinv.stepRange, hinv.haltLatched, hinv.leaderEmpty, hinv.wordBound, hinv.acquiringRuns⟩

/-- Settles O29, along the ways an instance can come out of an operation. -/
theorem errorFlagSetAndCleared : Obligations.ErrorFlagSetAndCleared := by
  refine ⟨fun i s t d' hs h ht => ?_, fun i s t d d' hs h ht => ⟨?_, State.errorOut_of_present ht, ?_⟩⟩
  · obtain ⟨p, rfl, rfl⟩ := exec_absent_cases hs h ht
    exact ⟨⟨p, rfl⟩, rfl⟩
  · obtain ⟨now, rfl, rfl⟩ | ⟨rfl, rfl⟩ | ⟨hi, rfl⟩ := exec_present_cases hs h ht
    · simp [(d.onEdge_flags now).1, d.framingError_iff]
    · simp
    · simp [Decoder.requestError_iff, isQuiet_ne_reset hi, isQuiet_ne_edge hi]
  · rw [exec_isError, State.errorOut_of_present ht, rspOfBool_eq_ite]

/-- Settles O30, along the ways an instance can come out of an operation. -/
theorem haltMarksTheFramingError : Obligations.HaltMarksTheFramingError := by
  intro i s t d d' hs h ht
  obtain ⟨now, rfl, rfl⟩ | ⟨rfl, rfl⟩ | ⟨hi, rfl⟩ := exec_present_cases hs h ht
  · rw [(d.onEdge_flags now).2, Bool.or_eq_true, d.framingError_iff]
    cases d.halt <;> simp
  · simp
  · simp [isQuiet_ne_reset hi, isQuiet_ne_edge hi]

/-- Settles O1, from what each lifecycle operation leaves. -/
theorem resetValuesOfEveryField : Obligations.ResetValuesOfEveryField := by
  refine ⟨rfl, State.powerOn_decoder, fun s p hs => exec_enable_absent hs p, fun s d hs => ?_, exec_disable⟩
  rw [exec_reset, hs]
  rfl

/-- Settles O31: an absent instance is left alone, and on a present one the row of EDGE is `Decoder.onEdge_frame`. -/
theorem edgeFrame : Obligations.EdgeFrame := by
  intro s t now h
  obtain ⟨hs, rfl⟩ | ⟨d, hs, -, rfl⟩ := exec_edge_cases h
  · exact ⟨rfl, rfl, rfl, fun _ => hs, fun d hd => absurd (hs.symm.trans hd) nofun⟩
  · refine ⟨rfl, rfl, rfl, fun hn => absurd (hs.symm.trans hn) nofun, fun d₀ hd₀ => ⟨d.onEdge now, rfl, ?_⟩⟩
    cases hs.symm.trans hd₀
    rw [State.phase_of_present hs]
    exact d.onEdge_frame now

/-- Settles O32: on a present instance only an extraction can find an error. -/
theorem quietRequestFrame : Obligations.QuietRequestFrame := by
  intro i s t hi h
  obtain ⟨u, hu, hin, htk, habs, -⟩ := exec_quiet hi s
  cases hu.symm.trans h
  refine ⟨hin, htk, habs, fun d hd => ?_⟩
  obtain ⟨r, hr⟩ := exec_quiet_present hi hd
  cases hr.symm.trans h
  refine ⟨_, rfl, fun he => by simp [he], fun ha hc => ?_⟩
  have hfound : d.requestError i = false := by
    rw [← Bool.not_eq_true, d.requestError_iff]
    simp [ha, hc]
  rw [hfound, Bool.or_false]

/-- Settles O33, one lifecycle operation after the other. -/
theorem lifecycleFrame : Obligations.LifecycleFrame := by
  rintro i s t (rfl | rfl | ⟨p, rfl⟩) h
  · rw [exec_reset] at h
    cases h
    refine ⟨rfl, rfl, rfl, fun _ => ?_⟩
    cases hd : s.decoder <;> simp [State.present, hd]
  · rw [exec_disable] at h
    cases h
    exact ⟨rfl, rfl, rfl, nofun⟩
  · obtain ⟨-, rfl⟩ := exec_enable_cases h
    exact ⟨rfl, rfl, rfl, nofun⟩
end

section
/-! PROOFS. The memory family (20_memory.md): what a step runs (R56, R57), the queries issued twice (R59), and the
stability of a finished word (R62). -/

namespace Sys2Proof.Machine

/-! ## What a step runs -/

/-- A step whose next stimulus is a cycle runs the events the cycle decodes to (20_memory.md R56, 30_encoding.md
R83). -/
theorem step_of_clk {s : State} {c : Cycle} {rest : List Stimulus} (h : s.inputs = .clk c :: rest) :
    step s = execAll (decode c) { s with inputs := rest, ticks := s.ticks + 1 } := by
  simp [step, State.nextStimulus, State.advance, h, apply, runCycle]

/-- A step whose next stimulus is an assertion of `rst_n` is a power-on (30_encoding.md R83; log 18). -/
theorem step_of_rst {s : State} {rest : List Stimulus} (h : s.inputs = .rst :: rest) :
    step s = .next { s with decoder := none, rsp := none, inputs := rest, ticks := s.ticks + 1 } := by
  simp [step, State.nextStimulus, State.advance, h, apply, State.powerOn]

/-- A step with no stimulus listed is an idle cycle, whose one event is NOP (log 2). -/
theorem step_of_no_inputs {s : State} (h : s.inputs = []) :
    step s = .next { s with rsp := none, ticks := s.ticks + 1 } := by
  have hadv : s.advance = { s with ticks := s.ticks + 1 } := by simp [State.advance, h]
  have hidle : step s = execAll [.nop] s.advance := by
    simp only [step, State.nextStimulus, h]
    rfl
  rw [hidle, execAll_singleton, hadv]
  rfl

/-! ## Queries issued twice -/

/-- The completion condition does not read `err`, the only field a usage error writes (60_exceptions.md R163). -/
@[simp] theorem Decoder.record_usage_complete (d : Decoder) : (d.record .usage).complete = d.complete := rfl

/-- The completion condition does not read `err`, the only field a checksum error writes (60_exceptions.md R162). -/
@[simp] theorem Decoder.record_checksum_complete (d : Decoder) : (d.record .checksum).complete = d.complete := rfl

/-- An error recorded twice is recorded once: the flag is sticky (10_state.md R25). -/
@[simp] theorem Decoder.record_record (e : ErrorClass) (d : Decoder) : (d.record e).record e = d.record e := by
  cases e <;> rfl

/-- GET_ADDRESS issued twice (20_memory.md R59). -/
theorem exec_getAddress_twice (s : State) : ∃ t, exec .getAddress s = .next t ∧ exec .getAddress t = .next t := by
  cases hd : s.decoder with
  | none => exact ⟨_, exec_getAddress_absent hd, exec_getAddress_absent hd⟩
  | some d =>
    refine ⟨_, exec_getAddress_present hd, ?_⟩
    rw [exec_getAddress_present rfl]
    cases hc : d.complete <;> simp [hc]

/-- GET_COMMAND issued twice (20_memory.md R59). -/
theorem exec_getCommand_twice (s : State) : ∃ t, exec .getCommand s = .next t ∧ exec .getCommand t = .next t := by
  cases hd : s.decoder with
  | none => exact ⟨_, exec_getCommand_absent hd, exec_getCommand_absent hd⟩
  | some d =>
    refine ⟨_, exec_getCommand_present hd, ?_⟩
    rw [exec_getCommand_present rfl]
    cases hc : d.complete <;> cases hk : commandCheck d.word <;> simp [hc, hk]

/-! ## Acquisition sequences -/

/-- The events of an acquisition are the edges and the quiet requests. -/
theorem isAcquisition_cases {i : Instr} (hi : isAcquisition i = true) : (∃ now, i = .edge now) ∨ isQuiet i = true := by
  cases i
  case edge now => exact .inl ⟨now, rfl⟩
  all_goals exact .inr hi

/-- An acquisition event that completes on a present instance leaves it present, after one edge or with `err` at most
raised (10_state.md R33, 41_queries_and_framer.md R131). -/
theorem exec_acquisition_present {i : Instr} {s t : State} {d : Decoder} (hi : isAcquisition i = true)
    (hd : s.decoder = some d) (h : exec i s = .next t) :
    ∃ d', t.decoder = some d' ∧
      ((∃ now, d' = d.onEdge now) ∨ ∃ e, d' = { d with err := e } ∧ (d.err = true → e = true)) := by
  obtain ⟨now, rfl⟩ | hq := isAcquisition_cases hi
  · obtain ⟨habs, -⟩ | ⟨d₀, hd₀, -, rfl⟩ := exec_edge_cases h
    · exact absurd (hd.symm.trans habs) nofun
    · cases hd.symm.trans hd₀
      exact ⟨_, rfl, .inl ⟨now, rfl⟩⟩
  · obtain ⟨u, hu, -, -, -, hpres⟩ := exec_quiet hq s
    cases hu.symm.trans h
    obtain ⟨e, ht, he⟩ := hpres d hd
    exact ⟨_, ht, .inr ⟨e, rfl, he⟩⟩

/-- What an edge keeps and raising `err` keeps of an instance, every acquisition sequence keeps. -/
theorem execAll_acquisition_keeps (P : Decoder → Prop) (edge : ∀ d now, P d → P (d.onEdge now))
    (raise : ∀ d e, P d → (d.err = true → e = true) → P { d with err := e }) {es : List Instr} {s t : State}
    {d : Decoder} (hes : ∀ i ∈ es, isAcquisition i = true) (hd : s.decoder = some d) (hP : P d)
    (h : execAll es s = .next t) : ∃ d', t.decoder = some d' ∧ P d' := by
  induction es generalizing s d with
  | nil => cases h; exact ⟨d, hd, hP⟩
  | cons i es ih =>
    obtain ⟨hi, hrest⟩ := List.forall_mem_cons.1 hes
    obtain ⟨u, hu, hut⟩ := execAll_cons_inv h
    obtain ⟨d', hd', ⟨now, rfl⟩ | ⟨e, rfl, he⟩⟩ := exec_acquisition_present hi hd hu
    · exact ih hrest hd' (edge d now hP) hut
    · exact ih hrest hd' (raise d e hP he) hut

/-! ## A finished instance -/

/-- The instance has finished with the word `w`, and no framing error is latched (10_state.md R28, DONE). -/
structure Decoder.FinishedWith (w : Word) (d : Decoder) : Prop where
  word : d.word = w
  step : d.step = 32
  halt : d.halt = false

/-- In DONE an edge writes `last` and nothing else (40_edge_acquisition.md R97). -/
theorem Decoder.onEdge_of_done {d : Decoder} (hs : d.step = 32) (hh : d.halt = false) (now : Time) :
    d.onEdge now = d.stamp now := by
  have hstep : d.step.toInt = 32 := by rw [hs]; decide
  simp [Decoder.onEdge, Decoder.phase_of_done hh hstep]

/-- An edge does not touch a finished word (20_memory.md R62). -/
theorem Decoder.FinishedWith.onEdge {w : Word} {d : Decoder} (h : d.FinishedWith w) (now : Time) :
    (d.onEdge now).FinishedWith w := by
  rw [Decoder.onEdge_of_done h.step h.halt]
  exact ⟨h.word, h.step, h.halt⟩

/-- Nor does a request that writes `err` (20_memory.md R62, 41_queries_and_framer.md R131). -/
theorem Decoder.FinishedWith.setErr {w : Word} {d : Decoder} (h : d.FinishedWith w) (e : Bool) :
    ({ d with err := e } : Decoder).FinishedWith w := ⟨h.word, h.step, h.halt⟩

/-- IS_FINISHED answers 1 on an instance that has finished (41_queries_and_framer.md R120). -/
theorem exec_isFinished_of_done {s : State} {d : Decoder} (hd : s.decoder = some d) (hs : d.step = 32) :
    exec .isFinished s = .next { s with rsp := some 1 } := by
  have hfin : s.finished = true := by simp [State.finished, hd, d.complete_iff.2 hs]
  rw [exec_isFinished, hfin]
  rfl

end Sys2Proof.Machine

open Sys2Proof Sys2Proof.Machine

/-! ## The obligations of the memory family -/

/-- Settles O46: the finished instance is kept by every edge and every quiet request, hence by any sequence of them. -/
theorem completionIsStable : Obligations.CompletionIsStable := by
  intro es s t d hes hd hs hh h
  obtain ⟨d', ht, hfin⟩ := execAll_acquisition_keeps (Decoder.FinishedWith d.word)
    (fun _ now hd₀ => hd₀.onEdge now) (fun _ e hd₀ _ => hd₀.setErr e) hes hd ⟨rfl, hs, hh⟩ h
  exact ⟨d', _, ht, hfin.word, hfin.step, hfin.halt, exec_isFinished_of_done ht hfin.step, rfl⟩

/-- Settles O25: the status queries write the response port only, and an extraction that records an error finds it
recorded when it is issued again. -/
theorem queriesAreIdempotent : Obligations.QueriesAreIdempotent := by
  rintro i s (rfl | rfl | rfl | rfl)
  · exact ⟨_, exec_isFinished s, exec_isFinished _⟩
  · exact ⟨_, exec_isError s, exec_isError _⟩
  · exact exec_getAddress_twice s
  · exact exec_getCommand_twice s

/-- Settles O38, one kind of next stimulus after the other. -/
theorem stepRunsTheDecodedEvents : Obligations.StepRunsTheDecodedEvents := by
  refine ⟨fun s c rest i h hi => ?_, fun s c rest i j h hij => ?_, fun s rest => step_of_rst, fun s => step_of_no_inputs⟩
  · rw [step_of_clk h, hi, execAll_singleton]
  · rw [step_of_clk h, hij]
end

section
/-! PROOFS. The encoding family (30_encoding.md): decoder and encoder (R71 to R74, R79), the status and response ports
(R75, R76), and event scripts with their pseudo-operations (R80, R81). -/

namespace Sys2Proof

/-! ## The decoder, row by row -/

/-- A word `1xxx` is none of the eight words below it (30_encoding.md R73). -/
theorem op_ne_of_reserved : ∀ {op : Op}, op.getLsbD 3 = true → op ≠ 0b0000#4 ∧ op ≠ 0b0001#4 ∧ op ≠ 0b0010#4 ∧
    op ≠ 0b0011#4 ∧ op ≠ 0b0100#4 ∧ op ≠ 0b0101#4 ∧ op ≠ 0b0110#4 ∧ op ≠ 0b0111#4 := by decide

/-- A word `1xxx` is at least 8 as a number (30_encoding.md R73). -/
theorem eight_le_toNat_of_reserved : ∀ {op : Op}, op.getLsbD 3 = true → 8 ≤ op.toNat := by decide

/-- A request word `1xxx` is reserved, and held whole (30_encoding.md R73, R77). -/
theorem decodeH_of_reserved {c : Cycle} (h : c.reqOp.getLsbD 3 = true) : decodeH c = .reserved c.reqOp := by
  simp [decodeH, op_ne_of_reserved h]

/-- The opcode map, row by row: every request word selects exactly one request (30_encoding.md R73, R79). -/
theorem decodeH_cases (c : Cycle) :
    (c.reqOp.getLsbD 3 = true ∧ decodeH c = .reserved c.reqOp) ∨
    (c.reqOp = 0b0000#4 ∧ decodeH c = .nop) ∨ (c.reqOp = 0b0001#4 ∧ decodeH c = .enable c.pinIn) ∨
    (c.reqOp = 0b0010#4 ∧ decodeH c = .disable) ∨ (c.reqOp = 0b0011#4 ∧ decodeH c = .reset) ∨
    (c.reqOp = 0b0100#4 ∧ decodeH c = .isFinished) ∨ (c.reqOp = 0b0101#4 ∧ decodeH c = .isError) ∨
    (c.reqOp = 0b0110#4 ∧ decodeH c = .getAddress) ∨ (c.reqOp = 0b0111#4 ∧ decodeH c = .getCommand) := by
  have words : ∀ op : Op, op.getLsbD 3 = true ∨ op = 0b0000#4 ∨ op = 0b0001#4 ∨ op = 0b0010#4 ∨ op = 0b0011#4 ∨
      op = 0b0100#4 ∨ op = 0b0101#4 ∨ op = 0b0110#4 ∨ op = 0b0111#4 := by decide
  rcases words c.reqOp with h | h | h | h | h | h | h | h | h
  case inl => exact .inl ⟨h, decodeH_of_reserved h⟩
  all_goals simp [decodeH, h]

/-- What the decoder reads from the request port is an operation of the block (30_encoding.md R73). -/
theorem wellFormed_decodeH (c : Cycle) : (decodeH c).wellFormed = true := by
  rcases decodeH_cases c with ⟨h, e⟩ | ⟨-, e⟩ | ⟨-, e⟩ | ⟨-, e⟩ | ⟨-, e⟩ | ⟨-, e⟩ | ⟨-, e⟩ | ⟨-, e⟩ | ⟨-, e⟩ <;> rw [e]
  case inl => exact h
  all_goals rfl

/-- The request read from a cycle, encoded again: the request word as it stood, and `pin_in` if ENABLE reads it
(30_encoding.md R72, R73). -/
theorem encode_decodeH (c : Cycle) :
    encode (decodeH c) =
      { edgeStb := false, now := 0, reqOp := c.reqOp, pinIn := if c.reqOp = 0b0001#4 then c.pinIn else 0 } := by
  rcases decodeH_cases c with ⟨h, e⟩ | ⟨h, e⟩ | ⟨h, e⟩ | ⟨h, e⟩ | ⟨h, e⟩ | ⟨h, e⟩ | ⟨h, e⟩ | ⟨h, e⟩ | ⟨h, e⟩ <;> rw [e]
  case inl =>
    obtain ⟨-, hne, -⟩ := op_ne_of_reserved h
    rw [if_neg hne]
    rfl
  all_goals rw [h]; rfl

/-! ## The events of a cycle -/

/-- Without an edge the cycle is its request (30_encoding.md R71, R79). -/
theorem decode_of_no_edge {c : Cycle} (h : c.edgeStb = false) : decode c = [decodeH c] := by
  simp [decode, decodeE, h]

/-- An edge beside the request word of NOP is the one event EDGE (42_lifecycle.md R148; log 17). -/
theorem decode_of_edge_alone {c : Cycle} (h : c.edgeStb = true) (hop : c.reqOp = 0b0000#4) :
    decode c = [.edge c.now] := by
  simp [decode, decodeE, h, hop]

/-- An edge beside any other request word comes before the request (30_encoding.md R79, 20_memory.md R57). -/
theorem decode_of_edge_and_request {c : Cycle} (h : c.edgeStb = true) (hop : c.reqOp ≠ 0b0000#4) :
    decode c = [.edge c.now, decodeH c] := by
  simp [decode, decodeE, h, hop]

/-- A well-formed event is the one event of its cycle (30_encoding.md R71 to R74). -/
theorem decode_encode {i : Instr} (hi : i.wellFormed = true) : decode (encode i) = [i] := by
  cases i
  case reserved op =>
    have hreq : decodeH (encode (.reserved op)) = .reserved op := decodeH_of_reserved hi
    rw [decode_of_no_edge rfl, hreq]
  all_goals rfl

/-- An event that is the only one of a cycle is well formed, and its own cycle agrees with that cycle on every port it
reads (30_encoding.md R71 to R73). -/
theorem encode_of_decode_eq_singleton {c : Cycle} {i : Instr} (h : decode c = [i]) :
    i.wellFormed = true ∧ encode i = { c with
      now := if c.edgeStb then c.now else 0
      pinIn := if c.edgeStb = false ∧ c.reqOp = 0b0001#4 then c.pinIn else 0 } := by
  cases hstb : c.edgeStb with
  | false =>
    obtain rfl : decodeH c = i := by simpa [decode_of_no_edge hstb] using h
    exact ⟨wellFormed_decodeH c, by simp [encode_decodeH]⟩
  | true =>
    by_cases hop : c.reqOp = 0b0000#4
    · obtain rfl : .edge c.now = i := by simpa [decode_of_edge_alone hstb hop] using h
      exact ⟨rfl, by simp [encode, Instr.agent, Instr.nowOperand, Instr.reqWord, Instr.pinOperand, hop]⟩
    · simp [decode_of_edge_and_request hstb hop] at h

end Sys2Proof

namespace Sys2Proof.Machine

/-! ## The response port -/

/-- The operations that have a response (30_encoding.md R76). -/
def responds : Instr → Bool
  | .isFinished | .isError | .getAddress | .getCommand => true
  | .edge _ | .nop | .enable _ | .disable | .reset | .reserved _ => false

/-- GET_ADDRESS drives a response in every state (41_queries_and_framer.md R122, R123, R127). -/
theorem exec_getAddress_rspValid {s t : State} (h : exec .getAddress s = .next t) : t.rspValid = true := by
  cases hd : s.decoder with
  | none => cases (exec_getAddress_absent hd).symm.trans h; rfl
  | some d => cases (exec_getAddress_present hd).symm.trans h; rfl

/-- GET_COMMAND drives a response in every state (41_queries_and_framer.md R124 to R127). -/
theorem exec_getCommand_rspValid {s t : State} (h : exec .getCommand s = .next t) : t.rspValid = true := by
  cases hd : s.decoder with
  | none => cases (exec_getCommand_absent hd).symm.trans h; rfl
  | some d => cases (exec_getCommand_present hd).symm.trans h; rfl

/-- `rsp_valid` after an operation says whether the operation has a response (30_encoding.md R76). -/
theorem exec_rspValid {i : Instr} {s t : State} (h : exec i s = .next t) : t.rspValid = responds i := by
  cases i
  case edge now => obtain ⟨-, rfl⟩ | ⟨d, -, -, rfl⟩ := exec_edge_cases h <;> rfl
  case enable p => obtain ⟨-, rfl⟩ := exec_enable_cases h; rfl
  case isFinished => cases (exec_isFinished s).symm.trans h; rfl
  case isError => cases (exec_isError s).symm.trans h; rfl
  case getAddress => exact exec_getAddress_rspValid h
  case getCommand => exact exec_getCommand_rspValid h
  all_goals cases h; rfl

/-- An operation without a response leaves the response port without one (30_encoding.md R76). -/
theorem exec_rsp_none {i : Instr} (hi : responds i = false) {s t : State} (h : exec i s = .next t) : t.rsp = none := by
  simpa [State.rspValid, hi] using exec_rspValid h

/-- No operation reads the response port, and every one writes it (30_encoding.md R76; log 14). -/
@[simp] theorem exec_with_rsp (i : Instr) (s : State) (r : Option Rsp) : exec i { s with rsp := r } = exec i s := by
  rcases s with ⟨_ | d, r', inputs, ticks⟩ <;> cases i <;> rfl

/-! ## One clock cycle -/

/-- A cycle without an edge is its request (30_encoding.md R79). -/
theorem runCycle_of_no_edge {c : Cycle} (h : c.edgeStb = false) (s : State) : runCycle c s = exec (decodeH c) s := by
  rw [runCycle, decode_of_no_edge h, execAll_singleton]

/-- A cycle whose edge completes is its request on the state the edge leaves; if the request word is `0000` there is
nothing left for NOP to do (30_encoding.md R79, 42_lifecycle.md R148). -/
theorem runCycle_of_edge {c : Cycle} (h : c.edgeStb = true) {s u : State} (hu : exec (.edge c.now) s = .next u) :
    runCycle c s = exec (decodeH c) u := by
  by_cases hop : c.reqOp = 0b0000#4
  · have hnop : decodeH c = .nop := by simp [decodeH, hop]
    have hrsp : u.rsp = none := exec_rsp_none rfl hu
    have hstay : exec .nop u = .next { u with rsp := none } := rfl
    rw [runCycle, decode_of_edge_alone h hop, execAll_singleton, hu, hnop, hstay, ← hrsp]
  · rw [runCycle, decode_of_edge_and_request h hop, execAll_cons_next hu, execAll_singleton]

/-- The cycle of a word of the opcode table runs the one operation read from the word (log 4). -/
theorem decode_ofTableWord {nbits w : Nat} {i : Instr} (h : decodeTableWord nbits w = some i) :
    decode (Cycle.ofTableWord nbits w) = [i] := by
  by_cases hn : nbits < 4
  · have hop : (Cycle.ofTableWord nbits w).reqOp = 0b0000#4 := by simp [Cycle.ofTableWord, hn]
    obtain ⟨hstb, rfl⟩ : (Cycle.ofTableWord nbits w).edgeStb = true ∧ .edge (Cycle.ofTableWord nbits w).now = i := by
      simpa [decodeTableWord, decodeE, hn] using h
    exact decode_of_edge_alone hstb hop
  · have hstb : (Cycle.ofTableWord nbits w).edgeStb = false := by simp [Cycle.ofTableWord, hn]
    obtain rfl : decodeH (Cycle.ofTableWord nbits w) = i := by simpa [decodeTableWord, hn] using h
    exact decode_of_no_edge hstb

/-! ## One edge of a frame -/

/-- A time that `TS_W` bits hold is the time that `now` carries (30_encoding.md R71, R80; log 5). -/
theorem toNat_time {t : Nat} (ht : t < 2 ^ 64) : (BitVec.ofNat 64 t : Time).toNat = t := by
  rw [BitVec.toNat_ofNat, Nat.mod_eq_of_lt ht]

/-- An edge that is not before the newest one, at a time that `TS_W` bits hold, completes (40_edge_acquisition.md
R91). -/
theorem exec_edge_ofNat {s : State} {d : Decoder} {t : Nat} (hd : s.decoder = some d) (hl : d.last.toNat ≤ t)
    (ht : t < 2 ^ 64) :
    exec (.edge (BitVec.ofNat 64 t)) s =
      .next { s with decoder := some (d.onEdge (BitVec.ofNat 64 t)), rsp := none } :=
  exec_edge_present hd (by rwa [BitVec.le_def, toNat_time ht])

/-- The gap of an edge `g` after the newest one, at a time that `TS_W` bits hold (40_edge_acquisition.md R92). -/
theorem gap_ofNat_add {last : Time} {t g : Nat} (hl : last.toNat = t) (ht : t + g < 2 ^ 64) :
    gap (BitVec.ofNat 64 (t + g)) last = g := by
  rw [gap, toNat_time ht, hl, Nat.add_sub_cancel_left]

/-- In LEADING_GAP an edge sets the reference (40_edge_acquisition.md R93). -/
theorem Decoder.onEdge_of_leadingGap {d : Decoder} (hh : d.halt = false) (hs : d.step.toInt = -2) (now : Time) :
    d.onEdge now = (d.stamp now).goto (-1) := by
  simp only [Decoder.onEdge, Decoder.phase_of_leadingGap hh hs]

/-- In LEADING_PULSE an edge that ends a leader pulse in the window starts the bits (40_edge_acquisition.md R94). -/
theorem Decoder.onEdge_of_leaderOk {d : Decoder} {now : Time} (hh : d.halt = false) (hs : d.step.toInt = -1)
    (hl : leaderOk (gap now d.last) = true) : d.onEdge now = (d.stamp now).goto 0 := by
  simp only [Decoder.onEdge, Decoder.phase_of_leadingPulse hh hs, hl, if_true]

/-- In a BIT phase an edge shifts one bit in (40_edge_acquisition.md R96). -/
theorem Decoder.onEdge_of_bit {d : Decoder} {k : Nat} (hh : d.halt = false) (hs : d.step.toInt = k) (hk : k < 32)
    (now : Time) : d.onEdge now = ((d.stamp now).shiftIn (bitOf (gap now d.last))).goto (k + 1) := by
  simp only [Decoder.onEdge, Decoder.phase_of_bit hh (by omega) (by omega), hs, Int.toNat_natCast]

/-! ## The leader of a frame -/

/-- The first two edges of a frame whose leader pulse lies in the window bring an instance in LEADING_GAP to its first
bit, and change nothing else but `last` (40_edge_acquisition.md R93, R94). -/
theorem execAll_leader {s : State} {d : Decoder} {t0 L : Nat} (hd : s.decoder = some d) (hh : d.halt = false)
    (hs : d.step.toInt = -2) (hl : d.last.toNat ≤ t0) (hmin : 13000 ≤ L) (hmax : L ≤ 14000) (ht : t0 + L < 2 ^ 64) :
    ∃ u, execAll [.edge (BitVec.ofNat 64 t0), .edge (BitVec.ofNat 64 (t0 + L))] s = .next u ∧
      u.decoder = some { d with step := stepOfInt 0, last := BitVec.ofNat 64 (t0 + L) } := by
  have href := exec_edge_ofNat hd hl (by omega)
  rw [Decoder.onEdge_of_leadingGap hh hs] at href
  have hreftime : ((d.stamp (BitVec.ofNat 64 t0)).goto (-1)).last.toNat = t0 := toNat_time (by omega)
  have hok : leaderOk (gap (BitVec.ofNat 64 (t0 + L)) ((d.stamp (BitVec.ofNat 64 t0)).goto (-1)).last) = true := by
    rw [gap_ofNat_add hreftime ht, leaderOk_eq_true_iff]
    exact ⟨hmin, hmax⟩
  refine ⟨_, (execAll_cons_next href).trans ((execAll_singleton _ _).trans (exec_edge_ofNat rfl (by omega) ht)), ?_⟩
  exact congrArg some (Decoder.onEdge_of_leaderOk hh (stepOfInt_toInt (by decide) (by decide)) hok)

/-! ## The bits of a frame -/

/-- The gap that a frame sends for a bit (30_encoding.md R81). -/
def bitGap (g0 g1 : Nat) (b : Bool) : Nat := if b then g1 else g0

/-- The times of the bit edges, by the gap of each (30_encoding.md R81). -/
theorem bitEdgeTimes_cons (g0 g1 t : Nat) (b : Bool) (bs : List Bool) :
    bitEdgeTimes g0 g1 t (b :: bs) = (t + bitGap g0 g1 b) :: bitEdgeTimes g0 g1 (t + bitGap g0 g1 b) bs := rfl

/-- The gap that a frame sends for a bit is at most `g1` (30_encoding.md R81). -/
theorem bitGap_le {g0 g1 : Nat} (h : g0 ≤ g1) (b : Bool) : bitGap g0 g1 b ≤ g1 := by cases b <;> simp [bitGap, h]

/-- The gap that a frame sends for a bit stands for that bit (40_edge_acquisition.md R102, 30_encoding.md R81). -/
theorem bitOf_bitGap {g0 g1 : Nat} (h0 : g0 ≤ 1600) (h1 : 1600 < g1) (b : Bool) : bitOf (bitGap g0 g1 b) = b := by
  rw [Bool.eq_iff_iff, bitOf_eq_true_iff]
  cases b
  · simpa [bitGap] using h0
  · simpa [bitGap] using h1

/-- One bit edge of a frame shifts its bit in and advances `step`, and changes nothing else but `last`
(40_edge_acquisition.md R96). -/
theorem exec_bitEdge {g0 g1 : Nat} (h0 : g0 ≤ 1600) (h1 : 1600 < g1) (b : Bool) {s : State} {d : Decoder} {t k : Nat}
    (hd : s.decoder = some d) (hh : d.halt = false) (hs : d.step.toInt = k) (hl : d.last.toNat = t) (hk : k < 32)
    (ht : t + bitGap g0 g1 b < 2 ^ 64) :
    ∃ u, exec (.edge (BitVec.ofNat 64 (t + bitGap g0 g1 b))) s = .next u ∧
      u.decoder = some { d with
        word := acc d.word b, step := stepOfInt (k + 1 : Nat), last := BitVec.ofNat 64 (t + bitGap g0 g1 b) } := by
  refine ⟨_, exec_edge_ofNat hd (by omega) ht, ?_⟩
  rw [Decoder.onEdge_of_bit hh hs hk, gap_ofNat_add hl ht, bitOf_bitGap h0 h1]
  rfl

/-- The bit edges of a frame, some of them or all, shift their bits in one after the other, and change nothing else of
the instance but `step` and `last` (40_edge_acquisition.md R96). -/
theorem execAll_bitEdges {g0 g1 : Nat} (h0 : g0 ≤ 1600) (h1 : 1600 < g1) {bs : List Bool} {s : State} {d : Decoder}
    {t k : Nat} (hd : s.decoder = some d) (hh : d.halt = false) (hs : d.step.toInt = k) (hl : d.last.toNat = t)
    (hk : k + bs.length ≤ 32) (ht : t + bs.length * g1 < 2 ^ 64) :
    ∃ u now, execAll ((bitEdgeTimes g0 g1 t bs).map fun x => .edge (BitVec.ofNat 64 x)) s = .next u ∧
      u.decoder = some { d with word := bs.foldl acc d.word, step := stepOfInt (k + bs.length : Nat), last := now } := by
  induction bs generalizing s d t k with
  | nil =>
    have hstep : stepOfInt (k : Nat) = d.step := by rw [← hs, stepOfInt, BitVec.ofInt_toInt]
    exact ⟨s, d.last, rfl, by rw [hd, List.length_nil, Nat.add_zero, hstep]; rfl⟩
  | cons b bs ih =>
    rw [List.length_cons] at hk ht ⊢
    have hgap : bitGap g0 g1 b ≤ g1 := bitGap_le (by omega) b
    have hend : t + bitGap g0 g1 b + bs.length * g1 < 2 ^ 64 := by rw [Nat.succ_mul] at ht; omega
    have hnow : t + bitGap g0 g1 b < 2 ^ 64 := by omega
    obtain ⟨u, hu, hdu⟩ := exec_bitEdge h0 h1 b hd hh hs hl (by omega) hnow
    obtain ⟨v, now, hv, hdv⟩ := ih hdu hh (stepOfInt_toInt (by omega) (by omega)) (toNat_time hnow) (by omega) hend
    refine ⟨v, now, (execAll_cons_next hu).trans hv, hdv.trans ?_⟩
    rw [Nat.add_assoc, Nat.add_comm 1]
    rfl

/-- Shifting the next lower bit of a word into its upper bits (40_edge_acquisition.md R103). -/
theorem acc_ushiftRight (w : Word) (n : Nat) : acc (w >>> (n + 1)) (w.getLsbD n) = w >>> n := by
  refine BitVec.eq_of_getLsbD_eq fun i hi => ?_
  rw [acc_getLsbD _ _ i hi, BitVec.getLsbD_ushiftRight, BitVec.getLsbD_ushiftRight]
  split
  · next h => rw [h, Nat.add_zero]
  · congr 1; omega

/-- The first `n` bits that a frame sends of a word, shifted into an empty accumulator, are the upper `n` bits of the
word (30_encoding.md R81, 40_edge_acquisition.md R103). -/
theorem foldl_acc_upperBits (w : Word) {n : Nat} (hn : n ≤ 32) :
    ((List.range n).map fun i => w.getLsbD (31 - i)).foldl acc 0 = w >>> (32 - n) := by
  induction n with
  | zero => exact (BitVec.ushiftRight_eq_zero (Nat.le_refl 32)).symm
  | succ n ih =>
    have hshift : 32 - n = 32 - (n + 1) + 1 := by omega
    have hbit : 31 - n = 32 - (n + 1) := by omega
    rw [List.range_succ, List.map_append, List.foldl_append, ih (by omega), List.map_singleton, hbit, hshift]
    exact acc_ushiftRight w (32 - (n + 1))

/-- The bits of a word, the most significant first, shifted into an empty accumulator, are the word (30_encoding.md
R81). -/
theorem foldl_acc_bitsMsbFirst (w : Word) : (bitsMsbFirst w).foldl acc 0 = w :=
  (foldl_acc_upperBits w (Nat.le_refl 32)).trans (BitVec.ushiftRight_zero w)

/-- A word has 32 bits to send (30_encoding.md R81). -/
theorem length_bitsMsbFirst (w : Word) : (bitsMsbFirst w).length = 32 := by simp [bitsMsbFirst]

/-! ## What the lines of a script expand to -/

/-- The cycles of `EDGE` lines, the first line apart (30_encoding.md R81). -/
theorem edgesAt_cons (t : Nat) (ts : List Nat) :
    edgesAt (t :: ts) = (edgeAt t).bind fun c => (edgesAt ts).map (c :: ·) := by
  rw [edgesAt]
  cases edgeAt t <;> cases edgesAt ts <;> rfl

/-- A script's cycles are those of its first line and then those of the rest (30_encoding.md R80). -/
theorem expandScript_cons (p : Option Nat) (l : ScriptLine) (rest : List ScriptLine) :
    expandScript p (l :: rest) =
      (l.event.expand p).bind fun e => (expandScript e.prev rest).map (e.cycles ++ ·) := by
  rw [expandScript]
  cases l.event.expand p <;> rfl

/-- A script that begins with `EDGE @t` (30_encoding.md R80). -/
theorem expandScript_edge (p : Option Nat) (t : Nat) (x : Option Rsp) (rest : List ScriptLine) :
    expandScript p (⟨.edge t, x⟩ :: rest) = (edgeAt t).bind fun c => (expandScript (some t) rest).map (c :: ·) := by
  rw [expandScript_cons, ScriptEvent.expand, Option.bind_map]
  rfl

/-- `GAP g` is the edge `g` after the previous one (30_encoding.md R81). -/
theorem expandScript_gap (t g : Nat) (x : Option Rsp) (rest : List ScriptLine) :
    expandScript (some t) (⟨.gap g, x⟩ :: rest) = expandScript none (⟨.edge (t + g), x⟩ :: rest) := rfl

/-- The `GAP` line of a bit of a frame (30_encoding.md R81). -/
def bitLine (g0 g1 : Nat) (b : Bool) : ScriptLine := { event := .gap (bitGap g0 g1 b), expect := none }

/-- `GAP` lines, one for each of some bits, are the bit edges of a frame (30_encoding.md R81). -/
theorem expandScript_bitLines (g0 g1 t : Nat) (bs : List Bool) (rest : List ScriptLine) :
    expandScript (some t) (bs.map (bitLine g0 g1) ++ rest) =
      (edgesAt (bitEdgeTimes g0 g1 t bs)).bind fun cs =>
        (expandScript (t :: bitEdgeTimes g0 g1 t bs).getLast? rest).map (cs ++ ·) := by
  induction bs generalizing t with
  | nil => simp [bitEdgeTimes, edgesAt]
  | cons b bs ih =>
    rw [List.map_cons, List.cons_append, bitLine, expandScript_gap, expandScript_edge, ih, bitEdgeTimes_cons,
      edgesAt_cons, List.getLast?_cons_cons]
    cases edgeAt (t + bitGap g0 g1 b) <;>
      cases edgesAt (bitEdgeTimes g0 g1 (t + bitGap g0 g1 b) bs) <;> simp [Function.comp_def]

/-- `FRAME` is its two leader edges and its bits, each on a line (30_encoding.md R81). -/
theorem expandScript_frame {g0 g1 : Nat} (h0 : g0 ≤ 1600) (h1 : 1600 < g1) (t0 L : Nat) (w : Word) (p : Option Nat)
    (rest : List ScriptLine) :
    expandScript p (⟨.frame t0 L w g0 g1, none⟩ :: rest) =
      expandScript p (⟨.edge t0, none⟩ :: ⟨.edge (t0 + L), none⟩ :: ((bitsMsbFirst w).map (bitLine g0 g1) ++ rest)) := by
  rw [expandScript_cons, ScriptEvent.expand, if_pos ⟨h0, h1⟩, Option.bind_map, expandScript_edge, expandScript_edge,
    expandScript_bitLines, frameTimes, edgesAt_cons, edgesAt_cons, List.getLast?_cons_cons]
  cases edgeAt t0 <;> cases edgeAt (t0 + L) <;>
    cases edgesAt (bitEdgeTimes g0 g1 (t0 + L) (bitsMsbFirst w)) <;> simp [Function.comp_def]

/-! ## Runs through `POLL` -/

/-- A sequence of events that ends has ended after its first part. -/
theorem execAll_append_inv {es fs : List Instr} {s u : State} (h : execAll (es ++ fs) s = .next u) :
    ∃ v, execAll es s = .next v ∧ execAll fs v = .next u := by
  induction es generalizing s with
  | nil => exact ⟨s, rfl, h⟩
  | cons i es ih =>
    obtain ⟨v, hv, hrest⟩ := execAll_cons_inv h
    obtain ⟨x, hx, hxu⟩ := ih hrest
    exact ⟨x, (execAll_cons_next hv).trans hx, hxu⟩

/-- A cycle of IS_FINISHED answers the `finished` output and changes nothing (41_queries_and_framer.md R120). -/
theorem runCycle_isFinished (s : State) :
    runCycle (encode .isFinished) s = .next { s with rsp := some (rspOfBool s.finished) } :=
  (runCycle_encode_request rfl s).trans (exec_isFinished s)

/-- IS_FINISHED with a demanded answer runs through exactly if the `finished` output is that answer
(41_queries_and_framer.md R120). -/
theorem runChecked_isFinished_cons (b : Bool) (cs : CheckedCycles) (s t : State) :
    runChecked ((encode .isFinished, some (rspOfBool b)) :: cs) s = some t ↔
      s.finished = b ∧ runChecked cs { s with rsp := some (rspOfBool b) } = some t := by
  have hinj : rspOfBool s.finished = rspOfBool b ↔ s.finished = b := by cases s.finished <;> cases b <;> decide
  by_cases hfin : s.finished = b <;> simp [runChecked, runCycle_isFinished, hinj, hfin]

/-- `POLL` begins with a request, so what stood on the response port before it does not matter (30_encoding.md R76,
R81). -/
theorem runChecked_pollCycles_with_rsp (pauses : List (List Time)) (s : State) (r : Option Rsp) :
    runChecked (pollCycles pauses) { s with rsp := r } = runChecked (pollCycles pauses) s := by
  have hfirst : runCycle (encode .isFinished) { s with rsp := r } = runCycle (encode .isFinished) s := by
    rw [runCycle_isFinished, runCycle_isFinished]
    rfl
  cases pauses <;> simp only [pollCycles, List.cons_append, runChecked, hfirst]

/-- The pauses are those that make IS_FINISHED, repeated until it returns 1, run from `s` to `t`: the edges so far leave
the instance unfinished before each pause and finished after the last (30_encoding.md R81; log 22). -/
def PollEnds (pauses : List (List Time)) (s t : State) : Prop :=
  (∀ k < pauses.length, ∃ u, execAll ((pauses.take k).flatten.map .edge) s = .next u ∧ u.finished = false) ∧
  (∃ u, execAll (pauses.flatten.map .edge) s = .next u ∧ u.finished = true ∧ t = { u with rsp := some 1 })

/-- Without a pause the first request returns 1. -/
theorem pollEnds_nil (s t : State) : PollEnds [] s t ↔ s.finished = true ∧ t = { s with rsp := some 1 } := by
  simp [PollEnds, execAll]

/-- Before a pause a request returns 0, and after the edges of the pause the polling goes on. -/
theorem pollEnds_cons (pause : List Time) (pauses : List (List Time)) (s t : State) :
    PollEnds (pause :: pauses) s t ↔
      s.finished = false ∧ ∃ v, execAll (pause.map .edge) s = .next v ∧ PollEnds pauses v t := by
  have peel {v : State} (hv : execAll (pause.map .edge) s = .next v) :
      PollEnds (pause :: pauses) s t ↔ s.finished = false ∧ PollEnds pauses v t := by
    simp only [PollEnds, List.length_cons, Nat.forall_lt_succ_left, List.take_zero, List.take_succ_cons,
      List.flatten_nil, List.flatten_cons, List.map_nil, List.map_append, execAll_append hv, execAll,
      Host.Outcome.next.injEq, exists_eq_left', and_assoc]
  constructor
  · intro h
    have ⟨_, u, hu, _⟩ := h
    rw [List.flatten_cons, List.map_append] at hu
    obtain ⟨v, hv, -⟩ := execAll_append_inv hu
    obtain ⟨hfin, hrest⟩ := (peel hv).1 h
    exact ⟨hfin, v, hv, hrest⟩
  · rintro ⟨hfin, v, hv, hrest⟩
    exact (peel hv).2 ⟨hfin, hrest⟩

/-- What does not depend on the response port is reached by the same events whatever stood on it (30_encoding.md R76). -/
theorem exists_execAll_with_rsp {P : State → Prop} (hP : ∀ v r, P { v with rsp := r } ↔ P v) (es : List Instr)
    (s : State) (r : Option Rsp) :
    (∃ v, execAll es { s with rsp := r } = .next v ∧ P v) ↔ ∃ v, execAll es s = .next v ∧ P v := by
  cases es with
  | nil => simp [execAll, hP]
  | cons i es => simp only [execAll, exec_with_rsp]

/-- The cycles of `POLL` run through exactly for the right pauses (30_encoding.md R81; log 22). -/
theorem runChecked_pollCycles (pauses : List (List Time)) (s t : State) :
    runChecked (pollCycles pauses) s = some t ↔ PollEnds pauses s t := by
  induction pauses generalizing s with
  | nil =>
    rw [pollCycles, runChecked_isFinished_cons, pollEnds_nil, runChecked, Option.some.injEq, eq_comm (b := t)]
    rfl
  | cons pause pauses ih =>
    have hrsp (v : State) (r : Option Rsp) : PollEnds pauses { v with rsp := r } t ↔ PollEnds pauses v t := by
      rw [← ih, ← ih, runChecked_pollCycles_with_rsp]
    rw [pollCycles, List.cons_append, runChecked_isFinished_cons, runChecked_append, Option.bind_eq_some_iff,
      pollEnds_cons, ← exists_execAll_with_rsp hrsp _ s (some (rspOfBool false))]
    simp only [runChecked_edges, ih]

/-! ## Written responses -/

/-- The line of a request is the cycle of the request (30_encoding.md R80). -/
theorem expand_request {i : Instr} (hi : isScriptRequest i = true) (p : Option Nat) :
    ScriptEvent.expand p (.request i) = some { cycles := [(encode i, none)], prev := p } := if_pos hi

/-- A `||` line is the one cycle of both its events (30_encoding.md R80). -/
theorem expand_both {i : Instr} (hi : isScriptRequest i = true) (now : Time) (p : Option Nat) :
    ScriptEvent.expand p (.both now.toNat i) = some { cycles := [(encodeBoth now i, none)], prev := some now.toNat } := by
  rw [ScriptEvent.expand, if_pos ⟨hi, now.isLt⟩, BitVec.ofNat_toNat, BitVec.setWidth_eq]

/-- The cycle of a `||` line is the edge and then the request (30_encoding.md R80, 20_memory.md R57). -/
theorem runCycle_encodeBoth {i : Instr} (hi : isScriptRequest i = true) (hnop : i ≠ .nop) (now : Time) (s : State) :
    runCycle (encodeBoth now i) s = execAll [.edge now, i] s := by
  cases i
  case nop => exact absurd rfl hnop
  case edge => cases hi
  case reserved => cases hi
  all_goals rfl

/-- A line of one cycle with a written response holds exactly if the cycle runs and drives that response
(30_encoding.md R80). -/
theorem scriptRun_one_cycle {e : ScriptEvent} {p q : Option Nat} {c : Cycle}
    (he : e.expand p = some { cycles := [(c, none)], prev := q }) (v : Rsp) (s t : State) :
    scriptRun p [{ event := e, expect := some v }] s = some t ↔ runCycle c s = .next t ∧ t.rsp = some v := by
  have hrun : runChecked [(c, none)] s = some t ↔ runCycle c s = .next t := by
    cases h : runCycle c s <;> simp [runChecked, h]
  simp [scriptRun_singleton, he, hrun, ScriptLine.met]

/-- A cycle that drives no response, whatever the state (30_encoding.md R76). -/
def CycleSilent (c : Cycle) : Prop := ∀ s t, runCycle c s = .next t → t.rsp = none

/-- An edge alone drives no response (40_edge_acquisition.md R90). -/
theorem cycleSilent_edge (now : Time) : CycleSilent (encode (.edge now)) := fun s _ h =>
  exec_rsp_none (i := .edge now) rfl ((runCycle_encode_edge now s).symm.trans h)

/-- A request without a response drives none (30_encoding.md R76). -/
theorem cycleSilent_request {i : Instr} (hi : isScriptRequest i = true) (hr : responds i = false) :
    CycleSilent (encode i) := fun s _ h =>
  exec_rsp_none hr ((runCycle_encode_request hi s).symm.trans h)

/-- The cycle of an `EDGE` line drives no response. -/
theorem cycleSilent_of_edgeAt {t : Nat} {c : Cycle × Option Rsp} (h : edgeAt t = some c) : CycleSilent c.1 := by
  rw [edgeAt] at h
  split at h <;> cases h
  exact cycleSilent_edge _

/-- Nor do the cycles of several `EDGE` lines. -/
theorem cycleSilent_of_edgesAt {ts : List Nat} {cs : CheckedCycles} (h : edgesAt ts = some cs) :
    ∀ c ∈ cs, CycleSilent c.1 := by
  induction ts generalizing cs with
  | nil => cases h; exact nofun
  | cons t ts ih =>
    simp only [edgesAt_cons, Option.bind_eq_some_iff, Option.map_eq_some_iff] at h
    obtain ⟨c, hc, cs, hcs, rfl⟩ := h
    exact List.forall_mem_cons.2 ⟨cycleSilent_of_edgeAt hc, ih hcs⟩

/-- Cycles that run through have run through after the first. -/
theorem runChecked_cons_inv {c : Cycle × Option Rsp} {cs : CheckedCycles} {s t : State}
    (h : runChecked (c :: cs) s = some t) : ∃ u, runCycle c.1 s = .next u ∧ runChecked cs u = some t := by
  rw [runChecked] at h
  cases hc : runCycle c.1 s with
  | next u =>
    simp only [hc] at h
    split at h
    · exact ⟨u, rfl, h⟩
    · cases h
  | fault r => simp [hc] at h
  | refused r => simp [hc] at h

/-- After cycles that drive no response, at least one of them, the response port carries none. -/
theorem runChecked_silent {cs : CheckedCycles} (hcs : ∀ c ∈ cs, CycleSilent c.1) (hne : cs ≠ []) {s t : State}
    (h : runChecked cs s = some t) : t.rsp = none := by
  induction cs generalizing s with
  | nil => exact absurd rfl hne
  | cons c cs ih =>
    obtain ⟨hc, hrest⟩ := List.forall_mem_cons.1 hcs
    obtain ⟨u, hu, ht⟩ := runChecked_cons_inv h
    cases cs with
    | nil => cases ht; exact hc s _ hu
    | cons c' cs => exact ih hrest nofun ht

/-- None of the cycles of the event drives a response, if `p` is the previous time (log 32). -/
def ScriptEvent.Silent (e : ScriptEvent) (p : Option Nat) : Prop :=
  ∀ x, e.expand p = some x → ∀ c ∈ x.cycles, CycleSilent c.1

/-- `EDGE @t` drives no response (40_edge_acquisition.md R90). -/
theorem ScriptEvent.silent_edge (p : Option Nat) (t : Nat) : (ScriptEvent.edge t).Silent p := by
  intro x hx c hc
  obtain ⟨c', hc', rfl⟩ := Option.map_eq_some_iff.1 hx
  cases List.mem_singleton.1 hc
  exact cycleSilent_of_edgeAt hc'

/-- `GAP g` is an edge (30_encoding.md R81). -/
theorem ScriptEvent.silent_gap (p : Option Nat) (g : Nat) : (ScriptEvent.gap g).Silent p := by
  intro x hx
  obtain ⟨t, -, hx⟩ := Option.bind_eq_some_iff.1 hx
  exact ScriptEvent.silent_edge p (t + g) x hx

/-- `AT t` emits no event (30_encoding.md R81). -/
theorem ScriptEvent.silent_at (p : Option Nat) (t : Nat) : (ScriptEvent.at t).Silent p := by
  intro x hx c hc
  cases hx
  cases hc

/-- `FRAME` is edges (30_encoding.md R81). -/
theorem ScriptEvent.silent_frame (p : Option Nat) (t0 L : Nat) (w : Word) (g0 g1 : Nat) :
    (ScriptEvent.frame t0 L w g0 g1).Silent p := by
  intro x hx
  rw [ScriptEvent.expand] at hx
  split at hx
  · obtain ⟨cs, hcs, rfl⟩ := Option.map_eq_some_iff.1 hx
    exact cycleSilent_of_edgesAt hcs
  · cases hx

/-- `EDGE @t || NOP` is the edge alone (42_lifecycle.md R148; log 17). -/
theorem ScriptEvent.silent_edge_and_nop (p : Option Nat) (t : Nat) : (ScriptEvent.both t .nop).Silent p := by
  intro x hx c hc
  rw [ScriptEvent.expand] at hx
  split at hx <;> cases hx
  cases List.mem_singleton.1 hc
  exact cycleSilent_edge _

/-- A request without a response drives none (30_encoding.md R76). -/
theorem ScriptEvent.silent_request (p : Option Nat) {i : Instr} (hr : responds i = false) :
    (ScriptEvent.request i).Silent p := by
  intro x hx c hc
  rw [ScriptEvent.expand] at hx
  split at hx <;> cases hx
  cases List.mem_singleton.1 hc
  exact cycleSilent_request ‹_› hr

/-- A response written on a line whose cycles drive none is never met (log 32). -/
theorem scriptRun_silent {e : ScriptEvent} {p : Option Nat} (he : e.Silent p) (v : Rsp) (s : State) :
    scriptRun p [{ event := e, expect := some v }] s = none := by
  refine Option.eq_none_iff_forall_ne_some.2 fun t h => ?_
  obtain ⟨x, hx, hrun, hmet⟩ := (scriptRun_singleton _ p s t).1 h
  obtain ⟨hne, hrsp⟩ : x.cycles ≠ [] ∧ t.rsp = some v := by simpa [ScriptLine.met] using hmet
  exact absurd ((runChecked_silent (he x hx) hne hrun).symm.trans hrsp) nofun

end Sys2Proof.Machine

open Sys2Proof Sys2Proof.Machine

/-! ## The obligations of the encoding family -/

/-- Settles O36: the decoder undoes the encoder on well-formed events, and the encoder the decoder on cycles of one
event. -/
theorem decodeAndEncodeAgree : Obligations.DecodeAndEncodeAgree :=
  ⟨fun _ => decode_encode, fun _ _ => encode_of_decode_eq_singleton⟩

/-- Settles O18: the first two edges are the leader, and the other 32 shift the word in. -/
theorem scriptFrameDecodesItsWord : Obligations.ScriptFrameDecodesItsWord := by
  intro s d t0 L g0 g1 w hd hh hs hw hl hLmin hLmax h0 h1 ht
  have hlead : t0 + L < 2 ^ 64 := by omega
  obtain ⟨u, hu, hdu⟩ := execAll_leader hd hh (d.step_eq_leadingGap_iff.1 hs) hl hLmin hLmax hlead
  obtain ⟨v, now, hv, hdv⟩ := execAll_bitEdges h0 h1 (bs := bitsMsbFirst w) (k := 0) hdu hh
    (stepOfInt_toInt (by decide) (by decide)) (toNat_time hlead) (by rw [length_bitsMsbFirst])
    (by rwa [length_bitsMsbFirst])
  refine ⟨v, _, (execAll_append hu).trans hv, hdv, ?_, ?_, rfl, hh, rfl⟩
  · exact (congrArg ((bitsMsbFirst w).foldl acc) hw).trans (foldl_acc_bitsMsbFirst w)
  · rw [length_bitsMsbFirst]; rfl

/-- Settles O39: a cycle is its request, after the edge if there is one, and the request is that of its row of the
opcode map. -/
theorem cycleFollowsTheDecodeRule : Obligations.CycleFollowsTheDecodeRule := by
  intro s c request hreq
  have hrow (u : State) : request u = exec (decodeH c) u := by
    rw [hreq]
    rcases decodeH_cases c with ⟨h, e⟩ | ⟨h, e⟩ | ⟨h, e⟩ | ⟨h, e⟩ | ⟨h, e⟩ | ⟨h, e⟩ | ⟨h, e⟩ | ⟨h, e⟩ | ⟨h, e⟩ <;>
      rw [e]
    case inl =>
      obtain ⟨n, hn⟩ : ∃ n, c.reqOp.toNat = n + 8 := Nat.exists_eq_add_of_le' (eight_le_toNat_of_reserved h)
      rw [hn]
      rfl
    all_goals rw [h]; rfl
  exact ⟨fun h => by rw [runCycle_of_no_edge h, hrow], fun h u hu => by rw [runCycle_of_edge h hu, hrow]⟩

/-- Settles O50: the line is its cycles, which run through exactly for the right pauses. -/
theorem pollRepeatsUntilFinished : Obligations.PollRepeatsUntilFinished := by
  intro pauses p s t
  refine Iff.trans ?_ (runChecked_pollCycles pauses s t)
  simp [scriptRun_singleton, ScriptEvent.expand, ScriptLine.met]

/-- Settles O34: the outputs and the two queries read the same fields. -/
theorem statusOutputsFollowTheState : Obligations.StatusOutputsFollowTheState := by
  intro s
  refine ⟨fun d hd => ?_, fun hd => ?_, ⟨_, exec_isFinished s, rspOfBool_eq_ite _⟩,
    ⟨_, exec_isError s, rspOfBool_eq_ite _⟩⟩
  · have hfin : d.complete = decide (d.step = 32) := by rw [Bool.eq_iff_iff, d.complete_iff, decide_eq_true_iff]
    simp [State.finished, State.errorOut, State.armed, State.present, State.pinSel, hd, hfin]
  · simp [State.finished, State.errorOut, State.armed, State.present, hd]

/-- Settles O35, one operation after the other. -/
theorem responseValidExactlyForQueries : Obligations.ResponseValidExactlyForQueries := by
  intro i s t h
  rw [exec_rspValid h]
  cases i <;> simp [responds]

/-- Settles O37: the six words, decoded. -/
theorem opcodeMapWords : Obligations.OpcodeMapWords := ⟨rfl, rfl, rfl, rfl, rfl, rfl⟩

/-- Settles O40: the step takes the placed cycle, and the cycle runs the operation read from its word. -/
theorem placedTableWordRunsNext : Obligations.PlacedTableWordRunsNext := by
  intro s nbits w i h
  rw [step_of_clk (s := s.withFetchWord nbits w) rfl, decode_ofTableWord h, execAll_singleton]
  rfl

/-- Settles O49: GAP and AT by what they expand to, FRAME by its leader and its bits. -/
theorem pseudoOperationsExpandAsTheTable : Obligations.PseudoOperationsExpandAsTheTable := by
  refine ⟨fun t g p => rfl, fun t p rest => ?_, fun t0 L g0 g1 w p rest h0 h1 => ?_⟩
  · simp [expandScript_cons, ScriptEvent.expand]
  · rw [expandScript_frame h0 h1, bitsMsbFirst, List.map_map]
    rfl

/-- Settles O51: a line of one cycle holds by that cycle, and a line whose cycles drive no response never does. -/
theorem writtenResponseIsTheOneDriven : Obligations.WrittenResponseIsTheOneDriven := by
  refine ⟨fun i v p s t hi => ?_, fun i now v p s t hi hnop => ?_, fun e v p s he => scriptRun_silent ?_ v s⟩
  · rw [scriptRun_one_cycle (expand_request hi p), runCycle_encode_request hi]
  · rw [scriptRun_one_cycle (expand_both hi now p), runCycle_encodeBoth hi hnop]
  · obtain ⟨x, rfl⟩ | ⟨x, rfl⟩ | ⟨x, rfl⟩ | ⟨t0, L, w, g0, g1, rfl⟩ | ⟨x, rfl⟩ | ⟨i, rfl, hi⟩ | ⟨x, rfl⟩ := he
    · exact ScriptEvent.silent_edge p x
    · exact ScriptEvent.silent_gap p x
    · exact ScriptEvent.silent_at p x
    · exact ScriptEvent.silent_frame p t0 L w g0 g1
    · exact ScriptEvent.silent_edge_and_nop p x
    · have hnone : ∀ j ∈ [Instr.nop, .disable, .reset], responds j = false := by decide
      exact ScriptEvent.silent_request p (hnone i hi)
    · exact ScriptEvent.silent_request p rfl
end

section
/-! PROOFS. The edge family (40_edge_acquisition.md): EDGE phase by phase (R91 to R103), the transition table (R109),
the latched framing error (R99), and the closed form of a frame with the host's queries interleaved (R104). -/

namespace Sys2Proof.Machine

/-! ## The accumulator -/

/-- The accumulator shifts first and inserts afterwards (40_edge_acquisition.md R103). -/
theorem acc_eq_or (w : Word) (b : Bool) : acc w b = (w <<< 1) ||| (if b then 1 else 0) := by cases b <;> rfl

/-- Bits shifted in one after the other stand in the word with the last one lowest, whatever the word held before
(40_edge_acquisition.md R103, R104). -/
theorem foldl_acc_getLsbD (w : Word) {bs : List Bool} (hlen : bs.length ≤ 32) {i : Nat} (hi : i < bs.length) :
    (bs.foldl acc w).getLsbD (bs.length - 1 - i) = bs[i] := by
  induction bs using List.reverseRecOn with
  | nil => cases hi
  | append_singleton bs b ih =>
    rw [List.length_append, List.length_singleton] at hlen hi
    simp only [List.length_append, List.length_singleton, Nat.add_sub_cancel]
    rw [List.foldl_append, List.foldl_cons, List.foldl_nil, acc_getLsbD _ _ _ (by omega)]
    obtain h | rfl := Nat.lt_succ_iff_lt_or_eq.1 hi
    · rw [if_neg (by omega), List.getElem_append_left h, Nat.sub_right_comm, ih (by omega) h]
    · simp

/-! ## EDGE, phase by phase -/

/-- An EDGE whose clock runs backwards is refused (40_edge_acquisition.md R91). -/
theorem exec_edge_backwards {now : Time} {s : State} {d : Decoder} (hd : s.decoder = some d)
    (hl : now.toNat < d.last.toNat) : exec (.edge now) s = .refused .clockBackwards := by
  simp [exec, execEdge, hd, clockBackwards, hl]

/-- On an instance without an edge yet every timestamp is in the contract (40_edge_acquisition.md R91). -/
theorem exec_edge_of_last_zero {s : State} {d : Decoder} (hd : s.decoder = some d) (hl : d.last = 0) (now : Time) :
    ∃ t, exec (.edge now) s = .next t :=
  ⟨_, exec_edge_present hd (by rw [hl, BitVec.le_def]; exact Nat.zero_le _)⟩

/-- In LEADING_PULSE an edge that ends a leader pulse outside the window latches the framing error
(40_edge_acquisition.md R95). -/
theorem Decoder.onEdge_of_leaderBad {d : Decoder} {now : Time} (hh : d.halt = false) (hs : d.step.toInt = -1)
    (hl : leaderOk (gap now d.last) = false) : d.onEdge now = (d.stamp now).record .framing := by
  simp only [Decoder.onEdge, Decoder.phase_of_leadingPulse hh hs, hl, Bool.false_eq_true, if_false]

/-- In ERROR an edge writes `last` and nothing else (40_edge_acquisition.md R99). -/
theorem Decoder.onEdge_of_halt {d : Decoder} (hh : d.halt = true) (now : Time) : d.onEdge now = d.stamp now := by
  simp only [Decoder.onEdge, Decoder.phase_of_halt hh]

/-- In DONE and for an out-of-range `step` an edge writes `last` and nothing else (40_edge_acquisition.md R97, R98). -/
theorem Decoder.onEdge_of_step_out {d : Decoder} (hs : d.step.toInt < -2 ∨ 32 ≤ d.step.toInt) (now : Time) :
    d.onEdge now = d.stamp now := by
  rcases d.onEdge_cases now with ⟨-, -, he⟩ | ⟨-, hs', -⟩ | ⟨-, hs', -⟩ | ⟨-, hs', -⟩ | ⟨-, lo, hi, -⟩ | ⟨-, -, -, he⟩
  case inl | inr.inr.inr.inr.inr => exact he
  all_goals omega

/-! ## What an edge does with `err` -/

/-- An edge does not read `err`: it raises it by a framing error, and the other fields do not depend on it
(40_edge_acquisition.md R92 to R99). -/
theorem Decoder.onEdge_setErr (d : Decoder) (e : Bool) (now : Time) :
    ({ d with err := e } : Decoder).onEdge now = { d.onEdge now with err := e || d.framingError now } := by
  have hphase : ({ d with err := e } : Decoder).phase = d.phase := rfl
  have herr : (({ d with err := e } : Decoder).onEdge now).err = (e || d.framingError now) :=
    (({ d with err := e } : Decoder).onEdge_flags now).1
  rw [← herr]
  simp only [Decoder.onEdge, hphase]
  cases d.phase
  case leadingPulse => cases leaderOk (gap now d.last) <;> rfl
  all_goals rfl

/-- The second instance is the first but for `err`, which may have been raised: all that a quiet request can do
(41_queries_and_framer.md R131). -/
def Decoder.RaisesTo (d d' : Decoder) : Prop := ∃ e, d' = { d with err := e } ∧ (d.err = true → e = true)

/-- An instance on which no request has been made. -/
theorem Decoder.RaisesTo.refl (d : Decoder) : d.RaisesTo d := ⟨d.err, rfl, id⟩

/-- One request after another. -/
theorem Decoder.RaisesTo.trans {d d' d'' : Decoder} (h : d.RaisesTo d') (h' : d'.RaisesTo d'') : d.RaisesTo d'' := by
  obtain ⟨e, rfl, he⟩ := h
  obtain ⟨e', rfl, he'⟩ := h'
  exact ⟨e', rfl, fun hd => he' (he hd)⟩

/-- The times of edges are compared with the same `last` (40_edge_acquisition.md R91). -/
theorem Decoder.RaisesTo.last_eq {d d' : Decoder} (h : d.RaisesTo d') : d'.last = d.last := by
  obtain ⟨e, rfl, -⟩ := h
  rfl

/-- A flag that is set cannot be raised any further. -/
theorem Decoder.RaisesTo.eq_of_err {d d' : Decoder} (h : d.RaisesTo d') (he : d.err = true) : d' = d := by
  obtain ⟨e, rfl, hle⟩ := h
  rw [hle he, ← he]

/-- One edge keeps two instances that differ in a raised `err` so. -/
theorem Decoder.RaisesTo.onEdge {d d' : Decoder} (h : d.RaisesTo d') (now : Time) :
    (d.onEdge now).RaisesTo (d'.onEdge now) := by
  obtain ⟨e, rfl, he⟩ := h
  refine ⟨_, d.onEdge_setErr e now, ?_⟩
  rw [(d.onEdge_flags now).1, Bool.or_eq_true, Bool.or_eq_true]
  exact Or.imp_left he

/-! ## Sequences of edges, alone and with quiet requests between them -/

/-- A quiet request is no edge. -/
theorem edgeTimes_cons_of_quiet {i : Instr} (hi : isQuiet i = true) (es : List Instr) :
    edgeTimes (i :: es) = edgeTimes es := by
  cases i
  case edge now => cases hi
  all_goals rfl

/-- An acquisition sequence without a quiet request is its edges. -/
theorem map_edge_edgeTimes {es : List Instr} (hes : ∀ i ∈ es, isAcquisition i = true)
    (hno : ∀ i ∈ es, isQuiet i = false) : (edgeTimes es).map .edge = es := by
  induction es with
  | nil => rfl
  | cons i es ih =>
    obtain ⟨hi, hrest⟩ := List.forall_mem_cons.1 hes
    obtain ⟨hni, hnrest⟩ := List.forall_mem_cons.1 hno
    obtain ⟨now, rfl⟩ | hq := isAcquisition_cases hi
    · exact congrArg (Instr.edge now :: ·) (ih hrest hnrest)
    · exact absurd (hni.symm.trans hq) nofun

/-- Edges alone, at times that do not decrease, complete and are the fold of the single edge (20_memory.md R56,
40_edge_acquisition.md R91). -/
theorem execAll_edges {ts : List Time} {s : State} {d : Decoder} (hd : s.decoder = some d)
    (hts : (d.last :: ts).Pairwise (· ≤ ·)) :
    ∃ t, execAll (ts.map .edge) s = .next t ∧ t.decoder = some (ts.foldl Decoder.onEdge d) := by
  induction ts generalizing s d with
  | nil => exact ⟨s, rfl, hd⟩
  | cons now ts ih =>
    obtain ⟨hle, hrest⟩ := List.pairwise_cons.1 hts
    have hnow := exec_edge_present hd (hle now List.mem_cons_self)
    obtain ⟨t, ht, hdt⟩ := ih (s := { s with decoder := some (d.onEdge now), rsp := none }) rfl
      (by rwa [(d.onEdge_frame now).1])
    exact ⟨t, (execAll_cons_next hnow).trans ht, hdt⟩

/-- Edges at times that do not decrease, with quiet requests between them, complete and leave what the edges alone
would, but for a raised `err` (41_queries_and_framer.md R131). -/
theorem execAll_acquisition {es : List Instr} {s : State} {d d' : Decoder} (hes : ∀ i ∈ es, isAcquisition i = true)
    (hd : s.decoder = some d') (hr : d.RaisesTo d') (hts : (d.last :: edgeTimes es).Pairwise (· ≤ ·)) :
    ∃ t d'', execAll es s = .next t ∧ t.decoder = some d'' ∧
      ((edgeTimes es).foldl Decoder.onEdge d).RaisesTo d'' := by
  induction es generalizing s d d' with
  | nil => exact ⟨s, d', rfl, hd, hr⟩
  | cons i es ih =>
    obtain ⟨hi, hrest⟩ := List.forall_mem_cons.1 hes
    obtain ⟨now, rfl⟩ | hq := isAcquisition_cases hi
    · obtain ⟨hle, hts'⟩ := List.pairwise_cons.1 hts
      have hnow := exec_edge_present hd (hr.last_eq ▸ hle now List.mem_cons_self)
      obtain ⟨t, d'', ht, hdt, hrt⟩ := ih hrest (s := { s with decoder := some (d'.onEdge now), rsp := none }) rfl
        (hr.onEdge now) (by rwa [(d.onEdge_frame now).1])
      exact ⟨t, d'', (execAll_cons_next hnow).trans ht, hdt, hrt⟩
    · rw [edgeTimes_cons_of_quiet hq] at hts ⊢
      obtain ⟨u, hu, -, -, -, hpres⟩ := exec_quiet hq s
      obtain ⟨e, hdu, he⟩ := hpres d' hd
      obtain ⟨t, d'', ht, hdt, hrt⟩ := ih hrest hdu (hr.trans ⟨e, rfl, he⟩) hts
      exact ⟨t, d'', (execAll_cons_next hu).trans ht, hdt, hrt⟩

/-! ## The fold of the edges of a frame -/

/-- The first two edges, with a leader pulse in the window (40_edge_acquisition.md R93, R94). -/
theorem Decoder.onEdge_onEdge_of_leaderOk {d : Decoder} {t0 t1 : Time} (hh : d.halt = false)
    (hs : d.step.toInt = -2) (hl : leaderOk (gap t1 t0) = true) :
    (d.onEdge t0).onEdge t1 = { d with last := t1, step := 0 } := by
  have hpulse : ((d.stamp t0).goto (-1)).step.toInt = -1 := stepOfInt_toInt (by decide) (by decide)
  rw [Decoder.onEdge_of_leadingGap hh hs]
  exact Decoder.onEdge_of_leaderOk (d := (d.stamp t0).goto (-1)) hh hpulse hl

/-- The first two edges, with a leader pulse outside the window (40_edge_acquisition.md R93, R95). -/
theorem Decoder.onEdge_onEdge_of_leaderBad {d : Decoder} {t0 t1 : Time} (hh : d.halt = false)
    (hs : d.step.toInt = -2) (hl : leaderOk (gap t1 t0) = false) :
    (d.onEdge t0).onEdge t1 = { d with last := t1, step := -2, halt := true, err := true } := by
  have hpulse : ((d.stamp t0).goto (-1)).step.toInt = -1 := stepOfInt_toInt (by decide) (by decide)
  rw [Decoder.onEdge_of_leadingGap hh hs]
  exact Decoder.onEdge_of_leaderBad (d := (d.stamp t0).goto (-1)) hh hpulse hl

/-- In ERROR any number of edges leave `last` at the newest one (40_edge_acquisition.md R99). -/
theorem Decoder.foldl_onEdge_of_halt {d : Decoder} (hh : d.halt = true) (ts : List Time) :
    ts.foldl Decoder.onEdge d = d.stamp (ts.getLastD d.last) := by
  induction ts generalizing d with
  | nil => rfl
  | cons now ts ih =>
    rw [List.foldl_cons, Decoder.onEdge_of_halt hh, ih (d := d.stamp now) hh, List.getLastD_cons]
    rfl

/-- The bits that edges at these times stand for, after an edge at `last` (40_edge_acquisition.md R102). -/
def bitsOfTimes (last : Time) (ts : List Time) : List Bool :=
  List.zipWith (fun before now => bitOf (gap now before)) (last :: ts) ts

/-- The first bit is that of the first gap (40_edge_acquisition.md R102). -/
theorem bitsOfTimes_cons (last now : Time) (ts : List Time) :
    bitsOfTimes last (now :: ts) = bitOf (gap now last) :: bitsOfTimes now ts := rfl

/-- One bit per edge. -/
@[simp] theorem length_bitsOfTimes (last : Time) (ts : List Time) : (bitsOfTimes last ts).length = ts.length := by
  simp [bitsOfTimes]

/-- Each bit is that of the gap before its edge (40_edge_acquisition.md R102). -/
theorem bitsOfTimes_getElem (last : Time) {ts : List Time} {i : Nat} (hi : i < ts.length) :
    (bitsOfTimes last ts)[i]'(by simpa) = decide (1600 < ts[i]!.toNat - (last :: ts)[i]!.toNat) := by
  have hcons : i < (last :: ts).length := by rw [List.length_cons]; omega
  rw [getElem!_pos ts i hi, getElem!_pos (last :: ts) i hcons]
  simp only [bitsOfTimes, List.getElem_zipWith]
  rfl

/-- The edges of the bit phases shift in the bits they stand for (40_edge_acquisition.md R96). -/
theorem Decoder.foldl_onEdge_of_bits {d : Decoder} {k : Nat} {ts : List Time} (hh : d.halt = false)
    (hs : d.step.toInt = k) (hk : k + ts.length ≤ 32) :
    ts.foldl Decoder.onEdge d = { d with
      word := (bitsOfTimes d.last ts).foldl acc d.word
      step := stepOfInt (k + ts.length : Nat)
      last := ts.getLastD d.last } := by
  induction ts generalizing d k with
  | nil =>
    have hstep : stepOfInt (k : Nat) = d.step := by rw [← hs, stepOfInt, BitVec.ofInt_toInt]
    simp [bitsOfTimes, hstep]
  | cons now ts ih =>
    rw [List.length_cons] at hk
    have hstep : (stepOfInt (k + 1 : Int)).toInt = (k + 1 : Nat) := stepOfInt_toInt (by omega) (by omega)
    rw [List.foldl_cons, Decoder.onEdge_of_bit hh hs (by omega),
      ih (d := ((d.stamp now).shiftIn (bitOf (gap now d.last))).goto (k + 1)) hh hstep (by omega),
      List.getLastD_cons, List.length_cons, bitsOfTimes_cons, Nat.add_assoc, Nat.add_comm 1]
    rfl

/-- A frame with a leader pulse in the window completes (40_edge_acquisition.md R104). -/
theorem Decoder.foldl_onEdge_of_frame {d : Decoder} {t0 t1 : Time} {ts : List Time} (hh : d.halt = false)
    (hs : d.step.toInt = -2) (hl : leaderOk (gap t1 t0) = true) (hlen : ts.length = 32) :
    (t0 :: t1 :: ts).foldl Decoder.onEdge d =
      { d with word := (bitsOfTimes t1 ts).foldl acc d.word, step := 32, last := ts.getLastD t1 } := by
  rw [List.foldl_cons, List.foldl_cons, Decoder.onEdge_onEdge_of_leaderOk hh hs hl,
    Decoder.foldl_onEdge_of_bits (d := { d with last := t1, step := 0 }) (k := 0) hh rfl (by omega), hlen]
  rfl

/-- Edges with a leader pulse outside the window latch the framing error, however many follow (40_edge_acquisition.md
R95, R99, R104). -/
theorem Decoder.foldl_onEdge_of_badLeader {d : Decoder} {t0 t1 : Time} (ts : List Time) (hh : d.halt = false)
    (hs : d.step.toInt = -2) (hl : leaderOk (gap t1 t0) = false) :
    (t0 :: t1 :: ts).foldl Decoder.onEdge d =
      { d with last := ts.getLastD t1, step := -2, halt := true, err := true } := by
  rw [List.foldl_cons, List.foldl_cons, Decoder.onEdge_onEdge_of_leaderBad hh hs hl, Decoder.foldl_onEdge_of_halt rfl]
  rfl

/-- The word of 32 bit edges, bit by bit (40_edge_acquisition.md R104). -/
theorem foldl_acc_bitsOfTimes_getLsbD (w : Word) (last : Time) {ts : List Time} (hlen : ts.length = 32) {i : Nat}
    (hi : i < 32) :
    ((bitsOfTimes last ts).foldl acc w).getLsbD (31 - i) = decide (1600 < ts[i]!.toNat - (last :: ts)[i]!.toNat) := by
  have hbits : (bitsOfTimes last ts).length = 32 := by rw [length_bitsOfTimes, hlen]
  rw [← bitsOfTimes_getElem last (hlen ▸ hi), ← foldl_acc_getLsbD w (Nat.le_of_eq hbits) (hbits ▸ hi), hbits]

/-- The newest of some edges, by its place among them. -/
theorem getLastD_eq_getElem! (last : Time) (ts : List Time) : ts.getLastD last = (last :: ts)[ts.length]! := by
  rw [getElem!_pos (last :: ts) _ (Nat.lt_succ_self _), List.getElem_cons_length rfl, List.getLast_eq_getLastD]

/-! ## The transition table -/

/-- The phase of a state without an instance (10_state.md R28). -/
theorem State.phase_of_absent {s : State} (hd : s.decoder = none) : s.phase = .absent := by
  simp [State.phase, hd]

/-- A present instance is in one of the other phases (10_state.md R28). -/
theorem Decoder.phase_ne_absent (d : Decoder) : d.phase ≠ .absent := by
  simp only [Decoder.phase]
  split_ifs <;> nofun

/-- RESET leaves an instance in LEADING_GAP (10_state.md R28, R34). -/
theorem Decoder.reinit_phase (d : Decoder) : d.reinit.phase = .leadingGap :=
  Decoder.phase_of_leadingGap rfl (stepOfInt_toInt (by decide) (by decide))

/-- The counter of an instance in which no error is latched, at the bit `k` (10_state.md R28). -/
theorem Decoder.goto_phase_of_bit {d : Decoder} {k : Nat} (hh : d.halt = false) (hk : k < 32) :
    (d.goto k).phase = .bit k := by
  have hs : (d.goto k).step.toInt = k := stepOfInt_toInt (by omega) (by omega)
  rw [Decoder.phase_of_bit (d := d.goto k) hh (by omega) (by omega), hs, Int.toNat_natCast]

/-- The counter one past the bit `k`: the next bit, or DONE (40_edge_acquisition.md R96, R109). -/
theorem Decoder.goto_succ_phase {d : Decoder} {k : Nat} (hh : d.halt = false) (hk : k < 32) :
    (d.goto (k + 1)).phase = if k < 31 then .bit (k + 1) else .done := by
  split
  · exact Decoder.goto_phase_of_bit (k := k + 1) hh (by omega)
  · obtain rfl : k = 31 := by omega
    exact Decoder.phase_of_done hh (stepOfInt_toInt (by decide) (by decide))

/-- The rows of EDGE on a present instance (40_edge_acquisition.md R109). -/
theorem Decoder.onEdge_phase (d : Decoder) (now : Time) :
    (d.onEdge now).phase = tablePhase (.edge now) (leaderOk (gap now d.last)) d.phase := by
  have stampPhase : (d.stamp now).phase = d.phase := rfl
  rcases d.onEdge_cases now with ⟨-, hp, he⟩ | ⟨hh, -, hp, he⟩ | ⟨hh, -, hp, hl, he⟩ | ⟨-, -, hp, hl, he⟩ |
    ⟨hh, lo, hi, hp, he⟩ | ⟨-, -, hp, he⟩
  · rw [he, stampPhase, hp]; rfl
  · rw [he, hp]; exact Decoder.phase_of_leadingPulse hh (stepOfInt_toInt (by decide) (by decide))
  · rw [he, hp, hl]; exact Decoder.goto_phase_of_bit (k := 0) hh (by decide)
  · rw [he, hp, hl]; exact Decoder.phase_of_halt rfl
  · obtain ⟨k, hk⟩ : ∃ k : Nat, d.step.toInt = k := Int.eq_ofNat_of_zero_le lo
    rw [he, hp, hk, Int.toNat_natCast]
    exact Decoder.goto_succ_phase hh (by omega)
  · rw [he, stampPhase, hp]; split <;> rfl

/-- A quiet request is in no row of the table (40_edge_acquisition.md R109). -/
theorem tablePhase_of_quiet {i : Instr} (hi : isQuiet i = true) (g : Bool) (p : Phase) : tablePhase i g p = p := by
  cases i
  case edge | enable | disable | reset => cases hi
  all_goals rfl

/-- A quiet request does not change the phase, which does not depend on `err` (40_edge_acquisition.md R109,
10_state.md R28). -/
theorem exec_quiet_phase {i : Instr} (hi : isQuiet i = true) {s t : State} (h : exec i s = .next t) :
    t.phase = s.phase := by
  obtain ⟨u, hu, -, -, habs, hpres⟩ := exec_quiet hi s
  cases hu.symm.trans h
  cases hd : s.decoder with
  | none => rw [State.phase_of_absent hd, State.phase_of_absent (habs hd)]
  | some d =>
    obtain ⟨e, ht, -⟩ := hpres d hd
    rw [State.phase_of_present hd, State.phase_of_present ht]
    rfl

/-- The rows of RESET: a present instance goes to LEADING_GAP from every phase (40_edge_acquisition.md R109). -/
theorem exec_reset_phase {s t : State} (h : exec .reset s = .next t) (g : Bool) :
    t.phase = tablePhase .reset g s.phase := by
  rw [exec_reset] at h
  cases h
  cases hd : s.decoder with
  | none => rw [State.phase_of_absent hd]; rfl
  | some d =>
    rw [State.phase_of_present hd]
    refine d.reinit_phase.trans ?_
    cases hp : d.phase
    case absent => exact absurd hp d.phase_ne_absent
    all_goals rfl

/-- The rows of the host's requests (40_edge_acquisition.md R109). -/
theorem exec_request_phase {i : Instr} (hi : ∀ now, i ≠ .edge now) {s t : State} (h : exec i s = .next t) (g : Bool) :
    t.phase = tablePhase i g s.phase := by
  have quiet (hq : isQuiet i = true) : t.phase = tablePhase i g s.phase := by
    rw [exec_quiet_phase hq h, tablePhase_of_quiet hq]
  cases i
  case edge now => exact absurd rfl (hi now)
  case enable p =>
    obtain ⟨hd, rfl⟩ := exec_enable_cases h
    rw [State.phase_of_absent hd]
    rfl
  case disable => cases h; rfl
  case reset => exact exec_reset_phase h g
  all_goals exact quiet rfl

end Sys2Proof.Machine

open Sys2Proof Sys2Proof.Machine

/-! ## The obligations of the edge family -/

/-- Settles O17: the sequence is the fold of its 34 edges but for a raised `err`, and the fold has a closed form for an
accepted leader and one for a rejected leader. -/
theorem frameClosedForm : Obligations.FrameClosedForm := by
  intro s d es ts hd hh hs _ hes hets hlen hts
  rw [d.step_eq_leadingGap_iff] at hs
  obtain ⟨t0, rest, rfl⟩ := List.exists_cons_of_length_eq_add_one hlen
  obtain ⟨t1, bits, rfl⟩ := List.exists_cons_of_length_eq_add_one (Nat.succ_inj.1 hlen)
  have hbits : bits.length = 32 := by simpa using hlen
  have hlast : bits.getLastD t1 = (t0 :: t1 :: bits)[33]! := by rw [getLastD_eq_getElem!, hbits]; rfl
  obtain ⟨t, d', ht, hdt, hr⟩ := execAll_acquisition hes hd (Decoder.RaisesTo.refl d) (hets ▸ hts)
  rw [hets] at hr
  refine ⟨fun hmin hmax => ?_, fun hbad => ?_⟩
  · have hl : leaderOk (gap t1 t0) = true := (leaderOk_eq_true_iff _).2 ⟨hmin, hmax⟩
    have hfold := Decoder.foldl_onEdge_of_frame hh hs hl hbits
    rw [hfold] at hr
    obtain ⟨e, rfl, -⟩ := hr
    refine ⟨t, _, ht, hdt, rfl, hh, hlast, rfl, fun i hi => foldl_acc_bitsOfTimes_getLsbD d.word t1 hbits hi,
      fun hno => ?_⟩
    obtain ⟨u, hu, hdu⟩ := execAll_edges hd hts
    rw [← hets, map_edge_edgeTimes hes hno] at hu
    cases ht.symm.trans hu
    rw [hfold] at hdu
    cases hdt.symm.trans hdu
    rfl
  · have hl : leaderOk (gap t1 t0) = false := (leaderOk_eq_false_iff _).2 hbad
    have hfold (ts : List Time) := Decoder.foldl_onEdge_of_badLeader ts hh hs hl
    constructor
    · have htwo : (d.last :: [t0, t1]).Pairwise (· ≤ ·) :=
        hts.sublist (List.sublist_append_left [d.last, t0, t1] bits)
      obtain ⟨u, hu, hdu⟩ := execAll_edges hd htwo
      exact ⟨u, hu, hdu.trans (congrArg some (hfold []))⟩
    · rw [hfold] at hr
      exact ⟨t, ht, by rw [hdt, hr.eq_of_err rfl, hlast]⟩

/-- Settles O19: the rows of EDGE on a present instance, and those of the requests; an EDGE on an absent instance is in
no row. -/
theorem phaseTransitionTable : Obligations.PhaseTransitionTable := by
  intro i s t h
  refine ⟨fun hs g => ?_, ?_, fun hi g => exec_request_phase hi h g⟩
  · by_cases hi : ∃ now, i = .edge now
    · obtain ⟨now, rfl⟩ := hi
      cases (exec_edge_absent hs now).symm.trans h
      rw [State.phase_of_absent hs]
      exact State.phase_of_absent hs
    · exact exec_request_phase (not_exists.1 hi) h g
  · rintro d hs now rfl
    obtain ⟨hn, -⟩ | ⟨d', hd', -, rfl⟩ := exec_edge_cases h
    · exact absurd (hs.symm.trans hn) nofun
    · cases hs.symm.trans hd'
      rw [State.phase_of_present hs]
      exact d.onEdge_phase now

/-- Settles O47: a latched instance but for its `last` is kept by every edge and every quiet request. -/
theorem framingErrorIsLatched : Obligations.FramingErrorIsLatched := by
  intro es s t d hes hd hinv hh h
  obtain ⟨hs, herr, hw⟩ := hinv.haltLatched hh
  have hkeep := execAll_acquisition_keeps (fun d' => ∃ now, d' = d.stamp now) ?_ ?_ hes hd ⟨d.last, rfl⟩ h
  · obtain ⟨_, ht, now, rfl⟩ := hkeep
    have hfin : t.finished = false := by simp [State.finished, ht, Decoder.complete, hs]
    have herrt : t.errorOut = true := by rw [State.errorOut_of_present ht]; exact herr
    refine ⟨?_, ⟨now, ht⟩, d.step_eq_leadingGap_iff.2 hs, hw, herr, ⟨_, exec_isFinished t, ?_⟩,
      ⟨_, exec_isError t, ?_⟩, ⟨_, exec_reset t, ?_⟩, ⟨_, exec_disable t, rfl⟩⟩
    · rw [State.phase_of_present ht]; exact Decoder.phase_of_halt hh
    · rw [hfin]; rfl
    · rw [herrt]; rfl
    · rw [ht]; exact (d.stamp now).reinit_phase
  · rintro _ now ⟨before, rfl⟩
    exact ⟨now, Decoder.onEdge_of_halt (d := d.stamp before) hh now⟩
  · rintro _ e ⟨now, rfl⟩ he
    obtain rfl : e = true := he herr
    exact ⟨now, by rw [Decoder.stamp, herr]⟩

/-- Settles O9: each of the five on an absent instance. -/
theorem absentInstanceDefaults : Obligations.AbsentInstanceDefaults := by
  intro s hs
  refine ⟨exec_edge_absent hs, ?_, ?_, exec_getAddress_absent hs, exec_getCommand_absent hs⟩
  · rw [exec_disable, ← hs]
  · rw [exec_reset, hs, Option.map_none, ← hs]

/-- Settles O10: both sides of `last`; ENABLE and RESET leave `last` at 0, below every timestamp. -/
theorem backwardClockIsRefused : Obligations.BackwardClockIsRefused := by
  refine ⟨fun s d now hd => ⟨exec_edge_backwards hd, fun hl => ⟨_, exec_edge_present hd hl⟩⟩,
    fun s p now hs => ?_, fun s d now hd => ?_⟩
  · rw [execAll_cons_next (exec_enable_absent hs p), execAll_singleton]
    exact exec_edge_of_last_zero rfl rfl now
  · rw [execAll_cons_next (exec_reset s), execAll_singleton, hd]
    exact exec_edge_of_last_zero rfl rfl now

/-- Settles O11, by the arm of LEADING_GAP. -/
theorem firstEdgeSetsTheReference : Obligations.FirstEdgeSetsTheReference := by
  intro s d now hd hh hs hl
  rw [exec_edge_present hd hl, Decoder.onEdge_of_leadingGap hh (d.step_eq_leadingGap_iff.1 hs)]
  rfl

/-- Settles O12, by the accepting arm of LEADING_PULSE. -/
theorem leaderInWindowIsAccepted : Obligations.LeaderInWindowIsAccepted := by
  intro s d now hd hh hs hl hmin hmax
  rw [exec_edge_present hd hl, Decoder.onEdge_of_leaderOk hh (d.step_eq_leadingPulse_iff.1 hs)
    ((leaderOk_eq_true_iff _).2 ⟨hmin, hmax⟩)]
  rfl

/-- Settles O13, by the rejecting arm of LEADING_PULSE. -/
theorem leaderOutsideWindowLatchesFramingError : Obligations.LeaderOutsideWindowLatchesFramingError := by
  intro s d now hd hh hs hl hbad
  rw [exec_edge_present hd hl, Decoder.onEdge_of_leaderBad hh (d.step_eq_leadingPulse_iff.1 hs)
    ((leaderOk_eq_false_iff _).2 hbad)]
  exact ⟨_, rfl, Decoder.phase_of_halt (d := (d.stamp now).record .framing) rfl, rfl⟩

/-- Settles O14, by the arm of BIT(k). -/
theorem bitEdgeShiftsOneBitIn : Obligations.BitEdgeShiftsOneBitIn := by
  intro s d now hd hh lo hi hl
  obtain ⟨k, hk⟩ : ∃ k : Nat, d.step.toInt = k := Int.eq_ofNat_of_zero_le lo
  have hbit : d.onEdge now = { d with
      last := now, word := acc d.word (bitOf (gap now d.last)), step := stepOfInt (d.step.toInt + 1) } := by
    rw [hk]; exact Decoder.onEdge_of_bit hh hk (by omega) now
  rw [exec_edge_present hd hl, hbit, acc_eq_or, stepOfInt, BitVec.ofInt_add, BitVec.ofInt_toInt]
  simp [bitOf_eq_true_iff, gap]

/-- Settles O15: ERROR by `halt`, DONE and the out-of-range values by `step`. -/
theorem terminalPhasesOnlyStampTheEdge : Obligations.TerminalPhasesOnlyStampTheEdge := by
  rintro s d now hd hl (hh | hs)
  · rw [exec_edge_present hd hl, Decoder.onEdge_of_halt hh]; rfl
  · rw [exec_edge_present hd hl, Decoder.onEdge_of_step_out hs]; rfl

/-- Settles O16: the word as an expression and as a number. -/
theorem accumulatorDoublesAndAdds : Obligations.AccumulatorDoublesAndAdds := fun w b =>
  ⟨acc_eq_or w b, acc_toNat w b⟩
end

section
/-! PROOFS. The query family (41_queries_and_framer.md): the status queries (R120, R121), the two extractions on a
finished and on an unfinished instance (R122 to R126), their zero answers (R128), the read-out (R133), and the host's
requests in the middle of an acquisition (R131). -/

namespace Sys2Proof.Machine

/-! ## Slices of the word and responses -/

/-- The upper half of the word is its two upper lanes (20_memory.md R54). -/
theorem laneB3_append_laneB2 (w : Word) : laneB3 w ++ laneB2 w = w.extractLsb 31 16 :=
  BitVec.extractLsb'_append_extractLsb'_eq_extractLsb' rfl

/-- The address on slices of the word: the compact form under a matching check byte, the extended form otherwise
(41_queries_and_framer.md R122, R130). -/
theorem addressOf_eq_ite (w : Word) :
    addressOf w = if w.extractLsb 23 16 = ~~~ w.extractLsb 31 24 then (w.extractLsb 23 16).setWidth 16
      else w.extractLsb 31 16 := by
  simp only [addressOf, addressCheck_iff, laneB3_append_laneB2]
  rfl

/-- Two bytes side by side are 0 only if both are (41_queries_and_framer.md R128). -/
theorem byte_append_eq_zero_iff (x y : Byte) : (x ++ y : Rsp) = 0 ↔ x = 0 ∧ y = 0 := by
  constructor
  · intro h
    exact ⟨BitVec.extractLsb'_append_eq_left.symm.trans (congrArg (BitVec.extractLsb' 8 8) h),
      BitVec.extractLsb'_append_eq_right.symm.trans (congrArg (BitVec.extractLsb' 0 8) h)⟩
  · rintro ⟨rfl, rfl⟩; rfl

/-- A zero-extended byte is 0 only if the byte is (41_queries_and_framer.md R128). -/
theorem rspOfByte_eq_zero_iff (b : Byte) : rspOfByte b = 0 ↔ b = 0 := by
  have h : rspOfByte b = (0 : Byte) ++ b := BitVec.setWidth_eq_append (by decide)
  rw [h, byte_append_eq_zero_iff, eq_self, true_and]

/-- The two upper halves of a finished word for which the address is 0: `FF 00` in the compact form, `00 00` in the
extended form (41_queries_and_framer.md R128). -/
theorem addressOf_eq_zero_iff (w : Word) :
    addressOf w = 0 ↔ (laneB3 w = 0xFF ∧ laneB2 w = 0) ∨ (laneB3 w = 0 ∧ laneB2 w = 0) := by
  have hcheck : addressCheck w = true ↔ laneB2 w = ~~~ laneB3 w := decide_eq_true_iff
  by_cases hc : laneB2 w = ~~~ laneB3 w
  · have hff : laneB2 w = 0 ↔ laneB3 w = 0xFF := by
      rw [hc, BitVec.not_eq_comm]
      rfl
    have hne : ¬ (laneB3 w = 0 ∧ laneB2 w = 0) := by
      rintro ⟨h3, h2⟩
      rw [h3, h2] at hc
      exact absurd hc (by decide)
    rw [addressOf, if_pos (hcheck.2 hc), rspOfByte_eq_zero_iff, or_iff_left hne, and_iff_right_of_imp hff.1]
  · have hne : ¬ (laneB3 w = 0xFF ∧ laneB2 w = 0) := by
      rintro ⟨h3, h2⟩
      rw [h3, h2] at hc
      exact hc (by decide)
    rw [addressOf, if_neg (mt hcheck.1 hc), byte_append_eq_zero_iff, or_iff_right hne]

/-! ## The queries on a present instance -/

/-- The `finished` output of a state with an instance (30_encoding.md R75). -/
theorem State.finished_of_present {s : State} {d : Decoder} (hd : s.decoder = some d) : s.finished = d.complete := by
  simp [State.finished, hd]

/-- The address is answered as 0 before completion and where it is 0 (41_queries_and_framer.md R128). -/
theorem exec_getAddress_rsp_eq_zero_iff {s t : State} {d : Decoder} (hd : s.decoder = some d)
    (h : exec .getAddress s = .next t) : t.rsp = some 0 ↔ d.step ≠ 32 ∨ addressOf d.word = 0 := by
  cases (exec_getAddress_present hd).symm.trans h
  rw [ne_eq, ← d.complete_iff]
  cases d.complete <;> simp

/-- The command is answered as 0 before completion and where it is 0 (41_queries_and_framer.md R128). -/
theorem exec_getCommand_rsp_eq_zero_iff {s t : State} {d : Decoder} (hd : s.decoder = some d)
    (h : exec .getCommand s = .next t) : t.rsp = some 0 ↔ d.step ≠ 32 ∨ laneB0 d.word = 0 := by
  cases (exec_getCommand_present hd).symm.trans h
  rw [ne_eq, ← d.complete_iff, ← rspOfByte_eq_zero_iff]
  cases d.complete <;> simp

/-- A sequence of events does not read the response port it starts from (30_encoding.md R76; log 14). -/
theorem execAll_cons_with_rsp (i : Instr) (es : List Instr) (s : State) (r : Option Rsp) :
    execAll (i :: es) { s with rsp := r } = execAll (i :: es) s := by
  simp only [execAll, exec_with_rsp]

/-! ## Acquisitions up to `err` -/

/-- The two states hold the same instance but for its `err`, or none: quiet requests make no other difference
(41_queries_and_framer.md R131). -/
def State.SameButErr (s s' : State) : Prop := s.decoder.map Decoder.dropErr = s'.decoder.map Decoder.dropErr

/-- The instance without its `err` after an edge does not depend on `err` (40_edge_acquisition.md R92 to R99). -/
theorem Decoder.dropErr_onEdge_dropErr (d : Decoder) (now : Time) :
    (d.dropErr.onEdge now).dropErr = (d.onEdge now).dropErr := by
  have h : d.dropErr.onEdge now = { d.onEdge now with err := false || d.framingError now } := d.onEdge_setErr false now
  rw [h]
  rfl

/-- Instances that differ in `err` only have the same newest edge, and differ in `err` only after one more. -/
theorem Decoder.onEdge_of_dropErr_eq {d d' : Decoder} (h : d.dropErr = d'.dropErr) (now : Time) :
    d.last = d'.last ∧ (d.onEdge now).dropErr = (d'.onEdge now).dropErr :=
  ⟨congrArg (·.last) h, by rw [← d.dropErr_onEdge_dropErr, h, d'.dropErr_onEdge_dropErr]⟩

/-- An edge that completes on one of two states that differ in `err` only completes on the other, and they differ in
`err` only after it (41_queries_and_framer.md R131). -/
theorem State.SameButErr.edge {s s' t : State} {now : Time} (hsim : s.SameButErr s')
    (h : exec (.edge now) s = .next t) : ∃ t', exec (.edge now) s' = .next t' ∧ t.SameButErr t' := by
  rw [State.SameButErr] at hsim
  obtain ⟨hd, rfl⟩ | ⟨d, hd, hl, rfl⟩ := exec_edge_cases h
  · rw [hd, Option.map_none, eq_comm, Option.map_eq_none_iff] at hsim
    exact ⟨_, exec_edge_absent hsim now, by rw [State.SameButErr, hd, hsim]⟩
  · rw [hd, Option.map_some, eq_comm, Option.map_eq_some_iff] at hsim
    obtain ⟨d', hd', hdd'⟩ := hsim
    obtain ⟨hlast, honEdge⟩ := Decoder.onEdge_of_dropErr_eq hdd' now
    exact ⟨_, exec_edge_present hd' (hlast ▸ hl), congrArg some honEdge.symm⟩

/-- A quiet request changes no more than `err` (41_queries_and_framer.md R131). -/
theorem exec_quiet_sameButErr {i : Instr} (hi : isQuiet i = true) {s t : State} (h : exec i s = .next t) :
    t.SameButErr s := by
  obtain ⟨u, hu, -, -, habs, hpres⟩ := exec_quiet hi s
  cases hu.symm.trans h
  cases hd : s.decoder with
  | none => rw [State.SameButErr, hd, habs hd]
  | some d =>
    obtain ⟨e, ht, -⟩ := hpres d hd
    rw [State.SameButErr, hd, ht]
    rfl

/-- The edges of a sequence that begins with one. -/
theorem edgesOnly_cons_edge (now : Time) (es : List Instr) :
    edgesOnly (.edge now :: es) = .edge now :: edgesOnly es := rfl

/-- The edges of a sequence that begins with a quiet request are those of its rest. -/
theorem edgesOnly_cons_of_quiet {i : Instr} (hi : isQuiet i = true) (es : List Instr) :
    edgesOnly (i :: es) = edgesOnly es := by
  cases i
  case edge | enable | disable | reset => cases hi
  all_goals rfl

/-- An acquisition that completes, beside its edges alone: the two runs stay the same but for `err`
(41_queries_and_framer.md R131). -/
theorem State.SameButErr.edgesOnly {es : List Instr} {s s' t : State} (hsim : s.SameButErr s')
    (hes : ∀ i ∈ es, isAcquisition i = true) (h : execAll es s = .next t) :
    ∃ t', execAll (edgesOnly es) s' = .next t' ∧ t.SameButErr t' := by
  induction es generalizing s s' with
  | nil => cases h; exact ⟨s', rfl, hsim⟩
  | cons i es ih =>
    obtain ⟨hi, hrest⟩ := List.forall_mem_cons.1 hes
    obtain ⟨u, hu, hut⟩ := execAll_cons_inv h
    obtain ⟨now, rfl⟩ | hq := isAcquisition_cases hi
    · obtain ⟨u', hu', hsim'⟩ := hsim.edge hu
      obtain ⟨t', ht', htt'⟩ := ih hsim' hrest hut
      exact ⟨t', by rw [edgesOnly_cons_edge, execAll_cons_next hu', ht'], htt'⟩
    · rw [edgesOnly_cons_of_quiet hq]
      exact ih ((exec_quiet_sameButErr hq hu).trans hsim) hrest hut

end Sys2Proof.Machine

open Sys2Proof Sys2Proof.Machine

/-! ## The obligations of the query family -/

/-- Settles O27: the acquisition and its edges alone, run side by side from the same state, stay the same but for
`err`. -/
theorem queriesDoNotDisturbAcquisition : Obligations.QueriesDoNotDisturbAcquisition := by
  intro es s t hes h
  obtain ⟨u, hu, htu⟩ := State.SameButErr.edgesOnly (s := s) (s' := s) rfl hes h
  exact ⟨u, hu, htu.symm⟩

/-- Settles O26: an absent instance answers 0, and a present one before completion and where the field is 0. -/
theorem zeroAnswersOfTheExtractions : Obligations.ZeroAnswersOfTheExtractions := by
  intro s t
  cases hd : s.decoder with
  | none =>
    refine ⟨fun h => ?_, fun h => ?_⟩
    · cases (exec_getAddress_absent hd).symm.trans h; simp
    · cases (exec_getCommand_absent hd).symm.trans h; simp
  | some d =>
    simp only [reduceCtorEq, false_or, Option.some.injEq, exists_eq_left']
    refine ⟨fun h => ?_, exec_getCommand_rsp_eq_zero_iff hd⟩
    rw [exec_getAddress_rsp_eq_zero_iff hd h, addressOf_eq_zero_iff]
    rfl

/-- Settles O20: the response is the `finished` output. -/
theorem isFinishedAnswersStepThirtyTwo : Obligations.IsFinishedAnswersStepThirtyTwo := by
  refine fun s => ⟨fun d hd => ?_, fun hd => ?_⟩
  · simp only [exec_isFinished, State.finished_of_present hd, rspOfBool_eq_ite, d.complete_iff]
  · simp [exec_isFinished, State.finished, hd, rspOfBool_eq_ite]

/-- Settles O21: the response is the `error` output. -/
theorem isErrorAnswersTheFlag : Obligations.IsErrorAnswersTheFlag := by
  refine fun s => ⟨fun d hd => ?_, fun hd => ?_⟩
  · rw [exec_isError, State.errorOut_of_present hd, rspOfBool_eq_ite]
  · simp [exec_isError, State.errorOut, hd, rspOfBool_eq_ite]

/-- Settles O22, by the finished arm of GET_ADDRESS. -/
theorem getAddressOnFinishedInstance : Obligations.GetAddressOnFinishedInstance := by
  intro s d hd hs
  rw [exec_getAddress_present hd, if_pos (d.complete_iff.2 hs), if_pos (d.complete_iff.2 hs), addressOf_eq_ite, ← hd]

/-- Settles O23, by the two finished arms of GET_COMMAND. -/
theorem getCommandOnFinishedInstance : Obligations.GetCommandOnFinishedInstance := by
  intro s d hd hs
  rw [exec_getCommand_present hd, if_pos (d.complete_iff.2 hs), if_pos (d.complete_iff.2 hs)]
  simp only [commandCheck_iff]
  by_cases hk : d.word.extractLsb 7 0 = ~~~ d.word.extractLsb 15 8
  · rw [if_pos hk, if_pos hk]; rfl
  · rw [if_neg hk, if_neg hk]; rfl

/-- Settles O24, by the unfinished arms of the extractions. -/
theorem earlyExtractionIsUsageError : Obligations.EarlyExtractionIsUsageError := by
  intro s d hd hs
  have hc : ¬ d.complete = true := mt d.complete_iff.1 hs
  rw [exec_getAddress_present hd, exec_getCommand_present hd]
  simp only [if_neg hc]
  exact ⟨rfl, rfl⟩

/-- Settles O28: of the four requests only GET_COMMAND writes `err`, which IS_ERROR then answers. -/
theorem readOutReportsTheCheck : Obligations.ReadOutReportsTheCheck := by
  intro s d hd hs
  have hrun : ∃ t, execAll [.isFinished, .getAddress, .getCommand, .isError] s = .next t ∧
      t.rsp = some (if (if d.word.extractLsb 7 0 = ~~~ d.word.extractLsb 15 8 then d.err else true) then 1 else 0) := by
    rw [execAll_cons_next (exec_isFinished_of_done hd hs), execAll_cons_with_rsp,
      execAll_cons_next (getAddressOnFinishedInstance s d hd hs), execAll_cons_with_rsp,
      execAll_cons_next (getCommandOnFinishedInstance s d hd hs), execAll_singleton]
    exact ⟨_, (isErrorAnswersTheFlag _).1 _ rfl, rfl⟩
  obtain ⟨t, ht, hrsp⟩ := hrun
  refine ⟨t, ht, ?_⟩
  rw [hrsp]
  by_cases hk : d.word.extractLsb 7 0 = ~~~ d.word.extractLsb 15 8
  · cases d.err <;> simp [hk]
  · simp [hk]
end

section
/-! PROOFS. The lifecycle family (42_lifecycle.md): ENABLE, DISABLE and RESET one by one and in sequence (R140 to
R145), RESET against a fresh ENABLE (R147), and the requests that do nothing (R148, R149). -/

namespace Sys2Proof.Machine

/-! ## The lifecycle operations, alone and in sequence -/

/-- ENABLE on a present instance (42_lifecycle.md R141). -/
theorem exec_enable_present {s : State} {d : Decoder} (hd : s.decoder = some d) (p : Pin) :
    exec (.enable p) s = .refused .enableOnPresent := by
  simp [exec, execEnable, hd]

/-- RESET on a present instance (42_lifecycle.md R145). -/
theorem exec_reset_present {s : State} {d : Decoder} (hd : s.decoder = some d) :
    exec .reset s = .next { s with decoder := some d.reinit, rsp := none } := by
  rw [exec_reset, hd, Option.map_some]

/-- DISABLE and then ENABLE leave the fresh instance, and what follows starts from it (42_lifecycle.md R144). -/
theorem execAll_disable_enable (p : Pin) (es : List Instr) (s : State) :
    execAll (.disable :: .enable p :: es) s =
      execAll es { s with decoder := some (Decoder.fresh p), rsp := none } := by
  rw [execAll_cons_next (exec_disable s), execAll_cons_next (exec_enable_absent rfl p)]

/-- RESET of an instance that has been reset changes nothing (42_lifecycle.md R145, R147). -/
@[simp] theorem Decoder.reinit_reinit (d : Decoder) : d.reinit.reinit = d.reinit := rfl

/-- An instance that has been reset is not finished (42_lifecycle.md R147). -/
@[simp] theorem Decoder.reinit_complete (d : Decoder) : d.reinit.complete = false :=
  Bool.eq_false_iff.2 fun h => absurd (d.reinit.complete_iff.1 h) (by decide : stepOfInt (-2) ≠ 32)

/-- `armed` of a state with an instance (30_encoding.md R75). -/
theorem State.armed_of_present {s : State} {d : Decoder} (hd : s.decoder = some d) : s.armed = true := by
  simp [State.armed, State.present, hd]

/-- `pin_sel` of a state with an instance (30_encoding.md R75). -/
theorem State.pinSel_of_present {s : State} {d : Decoder} (hd : s.decoder = some d) : s.pinSel = d.pin := by
  simp [State.pinSel, hd]

/-! ## No operation reads the pin -/

/-- A state without the `pin` of its instance: `Result.dropPin` on the states (42_lifecycle.md R147). -/
def State.dropPin (s : State) : State := { s with decoder := s.decoder.map Decoder.dropPin }

/-- An outcome that has a next state without the `pin` has one with it. -/
theorem Result.dropPin_eq_next {r : Result} {u : State} (h : r.dropPin = .next u) :
    ∃ t, r = .next t ∧ t.dropPin = u := by
  cases r with
  | next t => exact ⟨t, rfl, Host.Outcome.next.inj h⟩
  | fault e => cases h
  | refused e => cases h

/-- Dropping the `pin` does not hide a refusal, nor its reason. -/
theorem Result.dropPin_eq_refused {r : Result} {e : Refusal} (h : r.dropPin = .refused e) : r = .refused e := by
  cases r with
  | next t => cases h
  | fault e' => cases h
  | refused e' => exact h

/-- The `pin` is dropped once. -/
theorem State.dropPin_dropPin (s : State) : s.dropPin.dropPin = s.dropPin := by
  obtain ⟨_ | d, r, inputs, ticks⟩ := s <;> rfl

/-- The instance without its `pin`. -/
theorem State.dropPin_decoder {s : State} {d : Decoder} (hd : s.decoder = some d) :
    s.dropPin.decoder = some d.dropPin := by
  rw [State.dropPin, hd, Option.map_some]

/-- The completion condition does not read `pin` (41_queries_and_framer.md R120). -/
@[simp] theorem Decoder.dropPin_complete (d : Decoder) : d.dropPin.complete = d.complete := rfl

/-- The instance without its `pin` holds the same word. -/
@[simp] theorem Decoder.dropPin_word (d : Decoder) : d.dropPin.word = d.word := rfl

/-- An edge does not read `pin` (40_edge_acquisition.md R92 to R99). -/
theorem Decoder.dropPin_onEdge (d : Decoder) (now : Time) : d.dropPin.onEdge now = (d.onEdge now).dropPin := by
  have hphase : d.dropPin.phase = d.phase := rfl
  have hlast : d.dropPin.last = d.last := rfl
  simp only [Decoder.onEdge, hphase, hlast]
  cases d.phase
  case leadingPulse => cases leaderOk (gap now d.last) <;> rfl
  all_goals rfl

/-- EDGE on a present instance does not read `pin`, be it refused or not (40_edge_acquisition.md R90, R91). -/
theorem exec_edge_dropPin {s : State} {d : Decoder} (hd : s.decoder = some d) (now : Time) :
    Result.dropPin (exec (.edge now) s.dropPin) = Result.dropPin (exec (.edge now) s) := by
  have hdrop : s.dropPin.decoder = some d.dropPin := State.dropPin_decoder hd
  by_cases hl : d.last ≤ now
  · rw [exec_edge_present hd hl, exec_edge_present (d := d.dropPin) hdrop hl, d.dropPin_onEdge]
    rfl
  · have hback : now.toNat < d.last.toNat := Nat.lt_of_not_le hl
    rw [exec_edge_backwards hd hback, exec_edge_backwards (d := d.dropPin) hdrop hback]

/-- GET_ADDRESS on a present instance does not read `pin` (41_queries_and_framer.md R122, R123). -/
theorem exec_getAddress_dropPin {s : State} {d : Decoder} (hd : s.decoder = some d) :
    Result.dropPin (exec .getAddress s.dropPin) = Result.dropPin (exec .getAddress s) := by
  rw [exec_getAddress_present hd, exec_getAddress_present (State.dropPin_decoder hd), d.dropPin_complete]
  cases d.complete <;> rfl

/-- GET_COMMAND on a present instance does not read `pin` (41_queries_and_framer.md R124 to R126). -/
theorem exec_getCommand_dropPin {s : State} {d : Decoder} (hd : s.decoder = some d) :
    Result.dropPin (exec .getCommand s.dropPin) = Result.dropPin (exec .getCommand s) := by
  rw [exec_getCommand_present hd, exec_getCommand_present (State.dropPin_decoder hd), d.dropPin_complete,
    d.dropPin_word]
  cases d.complete <;> cases commandCheck d.word <;> rfl

/-- No operation reads `pin`: it is refused, or ends, alike without it, but for the `pin` (42_lifecycle.md R147). -/
theorem exec_dropPin (i : Instr) (s : State) : Result.dropPin (exec i s.dropPin) = Result.dropPin (exec i s) := by
  obtain ⟨_ | d, r, inputs, ticks⟩ := s
  case none => rfl
  case some =>
    cases i
    case edge now => exact exec_edge_dropPin rfl now
    case getAddress => exact exec_getAddress_dropPin rfl
    case getCommand => exact exec_getCommand_dropPin rfl
    all_goals rfl

/-- No sequence of events reads `pin`: the two runs stay alike but for the `pin`, or stop at the same refusal
(42_lifecycle.md R147). -/
theorem execAll_dropPin (es : List Instr) (s : State) : (execAll es s.dropPin).dropPin = (execAll es s).dropPin := by
  induction es generalizing s with
  | nil => exact congrArg Host.Outcome.next s.dropPin_dropPin
  | cons i es ih =>
    have hi := exec_dropPin i s
    cases hs : exec i s with
    | next t =>
      rw [hs] at hi
      obtain ⟨t', ht', htt'⟩ : ∃ t', exec i s.dropPin = .next t' ∧ t'.dropPin = t.dropPin :=
        Result.dropPin_eq_next hi
      calc (execAll (i :: es) s.dropPin).dropPin
          = (execAll es t').dropPin := by rw [execAll_cons_next ht']
        _ = (execAll es t'.dropPin).dropPin := (ih t').symm
        _ = (execAll es t).dropPin := by rw [htt', ih]
        _ = (execAll (i :: es) s).dropPin := by rw [execAll_cons_next hs]
    | fault e => cases e
    | refused e =>
      rw [hs] at hi
      rw [execAll_cons_refused hs, execAll_cons_refused (Result.dropPin_eq_refused hi)]

/-- States that agree but for the `pin` are followed by runs that do (42_lifecycle.md R147). -/
theorem execAll_congr_dropPin {s s' : State} (h : s.dropPin = s'.dropPin) (es : List Instr) :
    (execAll es s).dropPin = (execAll es s').dropPin := by
  rw [← execAll_dropPin, h, execAll_dropPin]

end Sys2Proof.Machine

open Sys2Proof Sys2Proof.Machine

/-! ## The obligations of the lifecycle family -/

/-- Settles O7: RESET and DISABLE, ENABLE leave the same state but for the `pin`, which nothing that follows reads. -/
theorem resetBehavesAsFreshEnable : Obligations.ResetBehavesAsFreshEnable := by
  refine ⟨fun s d p es hd => ?_, fun s d hd => ⟨?_, ?_⟩, fun s => ?_⟩
  · rw [execAll_cons_next (exec_reset_present hd), execAll_disable_enable]
    have hsame : State.dropPin { s with decoder := some d.reinit, rsp := none } =
        State.dropPin { s with decoder := some (Decoder.fresh p), rsp := none } := rfl
    exact execAll_congr_dropPin hsame es
  · rw [execAll_cons_next (exec_reset_present hd), execAll_singleton, exec_isFinished,
      State.finished_of_present (d := d.reinit) rfl, d.reinit_complete]
    exact ⟨_, rfl, rfl⟩
  · rw [execAll_cons_next (exec_reset_present hd), execAll_singleton, exec_isError,
      State.errorOut_of_present (d := d.reinit) rfl, d.reinit_err]
    exact ⟨_, rfl, rfl⟩
  · have htwice : Decoder.reinit ∘ Decoder.reinit = Decoder.reinit := funext Decoder.reinit_reinit
    rw [execAll_cons_next (exec_reset s), execAll_singleton, exec_reset, exec_reset, Option.map_map, htwice]

/-- Settles O2, by the absent arm of ENABLE. -/
theorem enableCreatesFreshInstance : Obligations.EnableCreatesFreshInstance := fun _ p hs =>
  ⟨_, exec_enable_absent hs p, rfl, State.armed_of_present rfl, State.pinSel_of_present (d := Decoder.fresh p) rfl⟩

/-- Settles O3, by the present arm of ENABLE. -/
theorem enableOnPresentIsRefused : Obligations.EnableOnPresentIsRefused := fun _ _ p hs => exec_enable_present hs p

/-- Settles O4: the outputs are those of an absent instance. -/
theorem disableEndsTheInstance : Obligations.DisableEndsTheInstance := fun s =>
  ⟨_, exec_disable s, rfl, rfl, rfl, rfl, fun hs => by rw [← hs]⟩

/-- Settles O5: ENABLE finds no instance after DISABLE. -/
theorem nothingSurvivesDisable : Obligations.NothingSurvivesDisable := fun s p => execAll_disable_enable p [] s

/-- Settles O6: the instance is reinitialised, and the outputs read `present` and `pin`, which stay. -/
theorem resetReinitialisesInPlace : Obligations.ResetReinitialisesInPlace := by
  intro s d hs
  refine ⟨_, exec_reset_present hs, rfl, ?_, ?_⟩
  · rw [State.armed_of_present hs, State.armed_of_present rfl]
  · rw [State.pinSel_of_present hs, State.pinSel_of_present rfl, d.reinit_pin]

/-- Settles O8: each ends with the instance it found. -/
theorem nopAndReservedChangeNothing : Obligations.NopAndReservedChangeNothing := fun _ => ⟨rfl, fun _ _ => rfl⟩
end

section
/-! PROOFS. The exceptions family (60_exceptions.md): the contract on events (R160), and the read in the cycle of the
edge that completes the frame (R165). -/

namespace Sys2Proof.Machine

/-! ## The contract -/

/-- An event in the contract completes (60_exceptions.md R160). -/
theorem exec_of_inContract {i : Instr} {s : State} (h : InContract i s) : ∃ t, exec i s = .next t := by
  have quiet (hi : isQuiet i = true) : ∃ t, exec i s = .next t :=
    let ⟨t, ht, _⟩ := exec_quiet hi s
    ⟨t, ht⟩
  cases i
  case edge now =>
    cases hd : s.decoder with
    | none => exact ⟨_, exec_edge_absent hd now⟩
    | some d => exact ⟨_, exec_edge_present hd (h d hd)⟩
  case enable p => exact ⟨_, exec_enable_absent h p⟩
  case disable => exact ⟨_, exec_disable s⟩
  case reset => exact ⟨_, exec_reset s⟩
  all_goals exact quiet rfl

/-- An event outside the contract is a backward EDGE or an ENABLE on a present instance, and is refused as such
(60_exceptions.md R160, 42_lifecycle.md R150). -/
theorem exec_of_not_inContract {i : Instr} {s : State} (h : ¬ InContract i s) :
    (∃ now, i = .edge now ∧ exec i s = .refused .clockBackwards) ∨
      (∃ p, i = .enable p ∧ exec i s = .refused .enableOnPresent) := by
  cases i
  case edge now =>
    obtain ⟨d, hd, hl⟩ : ∃ d, s.decoder = some d ∧ ¬ d.last ≤ now := by simpa [InContract] using h
    exact .inl ⟨now, rfl, exec_edge_backwards hd (Nat.lt_of_not_le hl)⟩
  case enable p =>
    obtain ⟨d, hd⟩ := Option.ne_none_iff_exists'.1 h
    exact .inr ⟨p, rfl, exec_enable_present hd p⟩
  all_goals exact absurd trivial h

end Sys2Proof.Machine

open Sys2Proof Sys2Proof.Machine

/-! ## The obligations of the exceptions family -/

/-- Settles O42: what is outside the contract is refused, so what completes is in it. -/
theorem eventsCompleteExactlyInContract : Obligations.EventsCompleteExactlyInContract := by
  refine fun i s => ⟨⟨fun ⟨t, ht⟩ => ?_, exec_of_inContract⟩, exec_of_not_inContract⟩
  by_contra hc
  obtain ⟨_, -, hr⟩ | ⟨_, -, hr⟩ := exec_of_not_inContract hc
  · cases ht.symm.trans hr
  · cases ht.symm.trans hr

/-- Settles O41: the edge of BIT(31) leaves a finished instance, which GET_COMMAND then reads. -/
theorem completingEdgeThenReadInOneCycle : Obligations.CompletingEdgeThenReadInOneCycle := by
  rintro s d now b hd hh hs hl rfl
  have hbit : d.step.toInt = 31 := by rw [hs]; rfl
  have hdone : d.step + 1 = 32 := by rw [hs]; rfl
  rw [runCycle_encodeBoth (i := .getCommand) rfl nofun,
    execAll_cons_next (bitEdgeShiftsOneBitIn s d now hd hh (by omega) (by omega) hl), execAll_singleton,
    getCommandOnFinishedInstance _ _ rfl hdone]
  exact ⟨_, _, rfl, rfl, hdone, by simp only [decide_eq_true_eq], rfl, rfl⟩
end

section
/-! PROOFS. The reset and hazards family (70_reset_and_hazards.md): RESET in the middle of a frame (R198). -/

open Sys2Proof Sys2Proof.Machine

/-! ## The obligation of the reset and hazards family -/

/-- Settles O48: RESET puts `last` at 0, so no later timestamp runs backwards, and `step` at LEADING_GAP, so the gap
between the next two edges is taken for a leader pulse, which is too short. -/
theorem midFrameResetMisframes : Obligations.MidFrameResetMisframes := by
  intro s d t1 t2 hd h12 hshort
  have hl : leaderOk (gap t2 t1) = false := (leaderOk_eq_false_iff _).2 (.inl hshort)
  have hzero (now : Time) : d.reinit.last ≤ now := Nat.zero_le now.toNat
  have hts : (d.reinit.last :: [t1, t2]).Pairwise (· ≤ ·) :=
    .cons (fun now _ => hzero now) (List.pairwise_pair.2 h12)
  have hstep : d.reinit.step.toInt = -2 := stepOfInt_toInt (by decide) (by decide)
  obtain ⟨t, ht, hdt⟩ := execAll_edges (s := { s with decoder := some d.reinit, rsp := none }) rfl hts
  refine ⟨t, (execAll_cons_next (exec_reset_present hd)).trans ht, ?_⟩
  rw [State.phase_of_present hdt, Decoder.foldl_onEdge_of_badLeader [] rfl hstep hl]
  exact Decoder.phase_of_halt rfl
end
